-- ==== Sys2Proof/Word.lean ====
section
/-! DEFINITION. The widths of the machine's values (spec 00_scope.md R11, R12, R9): every value is unsigned. -/

namespace Sys2Proof

/-- 8 bits: a register V[x], a timer, a byte of memory, the immediate NN. -/
abbrev Byte := BitVec 8

/-- 16 bits: an instruction word, I, PC, a stack slot. -/
abbrev Word := BitVec 16

/-- The 12-bit immediate NNN (R80). -/
abbrev Addr := BitVec 12

/-- The 4-bit immediate N (R80). -/
abbrev Nibble := BitVec 4

/-- A register index, the fields X and Y (R80, R81: all 16 are legal). -/
abbrev Reg := Fin 16

/-- VF, the flag register (R21). -/
abbrev regF : Reg := 15

end Sys2Proof
end

