-- ==== Sys2Proof/Machine/Flags.lean ====
section
/-! DEFINITION. The flag computations, each from the values before the instruction (spec 42_alu.md R139, R146 to R150; 10_state.md R23). The sprite collision flag is computed in Machine/Display.lean. -/

namespace Sys2Proof.Machine

/-- A condition as a flag byte. -/
def flagByte (b : Bool) : Byte := if b then 1 else 0

/-- The carry of x + y: 1 exactly when the exact sum is 256 or more (R139, R146). -/
def carryFlag (x y : Byte) : Byte := flagByte (256 ≤ x.toNat + y.toNat)

/-- No borrow in a - b: 1 exactly when a is at least b (R139, R147, R149). -/
def noBorrowFlag (a b : Byte) : Byte := flagByte (b.toNat ≤ a.toNat)

/-- The bit a right shift by one moves out (R148). -/
def shiftedOutRight (x : Byte) : Byte := x &&& 1

/-- The bit a left shift by one moves out (R150). -/
def shiftedOutLeft (x : Byte) : Byte := (x >>> 7) &&& 1

end Sys2Proof.Machine
end

