-- ==== Sys2Proof/Syntax.lean ====
section
/-! DEFINITION. The instructions: one constructor per row of spec/opcode_table.json, in the table's order, with the fields the row names (spec 30_encoding.md R84). -/

namespace Sys2Proof

inductive Instr
  | cls                                              -- 00E0
  | ret                                              -- 00EE
  | jpAddr (nnn : Addr)                              -- 1NNN
  | callAddr (nnn : Addr)                            -- 2NNN
  | seVxByte (x : Reg) (nn : Byte)                   -- 3XNN
  | sneVxByte (x : Reg) (nn : Byte)                  -- 4XNN
  | seVxVy (x y : Reg)                               -- 5XY0
  | ldVxByte (x : Reg) (nn : Byte)                   -- 6XNN
  | addVxByte (x : Reg) (nn : Byte)                  -- 7XNN
  | ldVxVy (x y : Reg)                               -- 8XY0
  | orVxVy (x y : Reg)                               -- 8XY1
  | andVxVy (x y : Reg)                              -- 8XY2
  | xorVxVy (x y : Reg)                              -- 8XY3
  | addVxVy (x y : Reg)                              -- 8XY4
  | subVxVy (x y : Reg)                              -- 8XY5
  | shrVx (x y : Reg)                                -- 8XY6, Y decoded and not used (R91)
  | subnVxVy (x y : Reg)                             -- 8XY7
  | shlVx (x y : Reg)                                -- 8XYE, Y decoded and not used (R91)
  | sneVxVy (x y : Reg)                              -- 9XY0
  | ldIAddr (nnn : Addr)                             -- ANNN
  | jpV0Addr (nnn : Addr)                            -- BNNN
  | rndVxByte (x : Reg) (nn : Byte)                  -- CXNN
  | drwVxVyNibble (x y : Reg) (n : Nibble)           -- DXYN
  | skpVx (x : Reg)                                  -- EX9E
  | sknpVx (x : Reg)                                 -- EXA1
  | ldVxDt (x : Reg)                                 -- FX07
  | ldVxK (x : Reg)                                  -- FX0A
  | ldDtVx (x : Reg)                                 -- FX15
  | ldStVx (x : Reg)                                 -- FX18
  | addIVx (x : Reg)                                 -- FX1E
  | ldFVx (x : Reg)                                  -- FX29
  | ldBVx (x : Reg)                                  -- FX33
  | ldIndVx (x : Reg)                                -- FX55, LD [I], Vx
  | ldVxInd (x : Reg)                                -- FX65, LD Vx, [I]
  | sysAddr (nnn : Addr)                             -- 0NNN (row 35), unmapped (R85)
  deriving DecidableEq, Repr

end Sys2Proof
end

