-- ==== Sys2Proof/Decode.lean ====
section
/-! DEFINITION. Decoding and encoding (spec 30_encoding.md): the fields (R80), the decoder (R82, R83, R84, R86), the encoder and the opcode map (R84), and the host's reading of a table word. -/

namespace Sys2Proof

/-- Why bytes are not an instruction. -/
inductive Reject
  /-- No row of the opcode map matches the word (R86). -/
  | unmapped (w : Word)
  /-- Fewer than the two bytes every instruction has (R89). -/
  | truncated
  deriving DecidableEq, Repr

/-- `F = w[15:12]`, the family selector (R80). -/
def fieldF (w : Word) : BitVec 4 := w.extractLsb' 12 4
/-- `X = w[11:8]` (R80). -/
def fieldX (w : Word) : Reg := (w.extractLsb' 8 4).toFin
/-- `Y = w[7:4]` (R80). -/
def fieldY (w : Word) : Reg := (w.extractLsb' 4 4).toFin
/-- `N = w[3:0]` (R80). -/
def fieldN (w : Word) : Nibble := w.extractLsb' 0 4
/-- `NN = w[7:0]` (R80). -/
def fieldNN (w : Word) : Byte := w.extractLsb' 0 8
/-- `NNN = w[11:0]` (R80). -/
def fieldNNN (w : Word) : Addr := w.extractLsb' 0 12

/-- The four bits of a register index, as an encoding holds them. -/
def regBits (x : Reg) : BitVec 4 := BitVec.ofFin x

/-- Family 0x0 is keyed on the whole word (R83; D10); what is neither row 1 nor row 2 is row 35 (R85). -/
def decodeFamily0 (w : Word) : Except Reject Instr :=
  if w = 0x00E0#16 then .ok .cls
  else if w = 0x00EE#16 then .ok .ret
  else .ok (.sysAddr (fieldNNN w))

/-- Family 0x8 is keyed on N (R83). -/
def decodeFamily8 (w : Word) : Except Reject Instr :=
  match fieldN w with
  | 0x0#4 => .ok (.ldVxVy (fieldX w) (fieldY w))
  | 0x1#4 => .ok (.orVxVy (fieldX w) (fieldY w))
  | 0x2#4 => .ok (.andVxVy (fieldX w) (fieldY w))
  | 0x3#4 => .ok (.xorVxVy (fieldX w) (fieldY w))
  | 0x4#4 => .ok (.addVxVy (fieldX w) (fieldY w))
  | 0x5#4 => .ok (.subVxVy (fieldX w) (fieldY w))
  | 0x6#4 => .ok (.shrVx (fieldX w) (fieldY w))
  | 0x7#4 => .ok (.subnVxVy (fieldX w) (fieldY w))
  | 0xE#4 => .ok (.shlVx (fieldX w) (fieldY w))
  | _ => .error (.unmapped w)

/-- Family 0xE is keyed on NN (R83). -/
def decodeFamilyE (w : Word) : Except Reject Instr :=
  match fieldNN w with
  | 0x9E#8 => .ok (.skpVx (fieldX w))
  | 0xA1#8 => .ok (.sknpVx (fieldX w))
  | _ => .error (.unmapped w)

/-- Family 0xF is keyed on NN (R83). -/
def decodeFamilyF (w : Word) : Except Reject Instr :=
  match fieldNN w with
  | 0x07#8 => .ok (.ldVxDt (fieldX w))
  | 0x0A#8 => .ok (.ldVxK (fieldX w))
  | 0x15#8 => .ok (.ldDtVx (fieldX w))
  | 0x18#8 => .ok (.ldStVx (fieldX w))
  | 0x1E#8 => .ok (.addIVx (fieldX w))
  | 0x29#8 => .ok (.ldFVx (fieldX w))
  | 0x33#8 => .ok (.ldBVx (fieldX w))
  | 0x55#8 => .ok (.ldIndVx (fieldX w))
  | 0x65#8 => .ok (.ldVxInd (fieldX w))
  | _ => .error (.unmapped w)

/-- `Decode(w)` (R82, R83, R84, R103): keyed first on the family selector. -/
def decode (w : Word) : Except Reject Instr :=
  match fieldF w with
  | 0x0#4 => decodeFamily0 w
  | 0x1#4 => .ok (.jpAddr (fieldNNN w))
  | 0x2#4 => .ok (.callAddr (fieldNNN w))
  | 0x3#4 => .ok (.seVxByte (fieldX w) (fieldNN w))
  | 0x4#4 => .ok (.sneVxByte (fieldX w) (fieldNN w))
  | 0x5#4 => if fieldN w = 0#4 then .ok (.seVxVy (fieldX w) (fieldY w)) else .error (.unmapped w)
  | 0x6#4 => .ok (.ldVxByte (fieldX w) (fieldNN w))
  | 0x7#4 => .ok (.addVxByte (fieldX w) (fieldNN w))
  | 0x8#4 => decodeFamily8 w
  | 0x9#4 => if fieldN w = 0#4 then .ok (.sneVxVy (fieldX w) (fieldY w)) else .error (.unmapped w)
  | 0xA#4 => .ok (.ldIAddr (fieldNNN w))
  | 0xB#4 => .ok (.jpV0Addr (fieldNNN w))
  | 0xC#4 => .ok (.rndVxByte (fieldX w) (fieldNN w))
  | 0xD#4 => .ok (.drwVxVyNibble (fieldX w) (fieldY w) (fieldN w))
  | 0xE#4 => decodeFamilyE w
  | _ => decodeFamilyF w

/-- The word of two bytes, the byte at the lower address in bits 15 to 8 (20_memory.md R58). -/
def wordOfBytes (hi lo : Byte) : Word := hi ++ lo

/-- The two bytes of a word as memory holds them, the lower address first (R58). -/
def bytesOfWord (w : Word) : List Byte := [w.extractLsb' 8 8, w.extractLsb' 0 8]

/-- The decoder on any bytes: the first instruction and the bytes after it. Every instruction is exactly two bytes (R89). -/
def decodeBytes : List Byte → Except Reject (Instr × List Byte)
  | hi :: lo :: rest => (decode (wordOfBytes hi lo)).map fun i => (i, rest)
  | [_] => .error .truncated
  | [] => .error .truncated

/-- The word of an instruction: the digits of its pattern, the high ones first (R84). -/
def encode : Instr → Word
  | .cls => 0x00E0#16
  | .ret => 0x00EE#16
  | .jpAddr nnn => 0x1#4 ++ nnn
  | .callAddr nnn => 0x2#4 ++ nnn
  | .seVxByte x nn => 0x3#4 ++ regBits x ++ nn
  | .sneVxByte x nn => 0x4#4 ++ regBits x ++ nn
  | .seVxVy x y => 0x5#4 ++ regBits x ++ regBits y ++ 0x0#4
  | .ldVxByte x nn => 0x6#4 ++ regBits x ++ nn
  | .addVxByte x nn => 0x7#4 ++ regBits x ++ nn
  | .ldVxVy x y => 0x8#4 ++ regBits x ++ regBits y ++ 0x0#4
  | .orVxVy x y => 0x8#4 ++ regBits x ++ regBits y ++ 0x1#4
  | .andVxVy x y => 0x8#4 ++ regBits x ++ regBits y ++ 0x2#4
  | .xorVxVy x y => 0x8#4 ++ regBits x ++ regBits y ++ 0x3#4
  | .addVxVy x y => 0x8#4 ++ regBits x ++ regBits y ++ 0x4#4
  | .subVxVy x y => 0x8#4 ++ regBits x ++ regBits y ++ 0x5#4
  | .shrVx x y => 0x8#4 ++ regBits x ++ regBits y ++ 0x6#4
  | .subnVxVy x y => 0x8#4 ++ regBits x ++ regBits y ++ 0x7#4
  | .shlVx x y => 0x8#4 ++ regBits x ++ regBits y ++ 0xE#4
  | .sneVxVy x y => 0x9#4 ++ regBits x ++ regBits y ++ 0x0#4
  | .ldIAddr nnn => 0xA#4 ++ nnn
  | .jpV0Addr nnn => 0xB#4 ++ nnn
  | .rndVxByte x nn => 0xC#4 ++ regBits x ++ nn
  | .drwVxVyNibble x y n => 0xD#4 ++ regBits x ++ regBits y ++ n
  | .skpVx x => 0xE#4 ++ regBits x ++ 0x9E#8
  | .sknpVx x => 0xE#4 ++ regBits x ++ 0xA1#8
  | .ldVxDt x => 0xF#4 ++ regBits x ++ 0x07#8
  | .ldVxK x => 0xF#4 ++ regBits x ++ 0x0A#8
  | .ldDtVx x => 0xF#4 ++ regBits x ++ 0x15#8
  | .ldStVx x => 0xF#4 ++ regBits x ++ 0x18#8
  | .addIVx x => 0xF#4 ++ regBits x ++ 0x1E#8
  | .ldFVx x => 0xF#4 ++ regBits x ++ 0x29#8
  | .ldBVx x => 0xF#4 ++ regBits x ++ 0x33#8
  | .ldIndVx x => 0xF#4 ++ regBits x ++ 0x55#8
  | .ldVxInd x => 0xF#4 ++ regBits x ++ 0x65#8
  | .sysAddr nnn => 0x0#4 ++ nnn

/-- One row of the opcode map: a decoder tests `(w & mask) == bits` (R84, where `bits` is called match). -/
structure OpcodeRow where
  bits : Word
  mask : Word
  deriving DecidableEq, Repr

/-- The row of R84 an instruction belongs to; for 0NNN, row 35 of spec/opcode_table.json. -/
def Instr.opcodeRow : Instr → OpcodeRow
  | .cls => ⟨0x00E0, 0xFFFF⟩
  | .ret => ⟨0x00EE, 0xFFFF⟩
  | .jpAddr _ => ⟨0x1000, 0xF000⟩
  | .callAddr _ => ⟨0x2000, 0xF000⟩
  | .seVxByte _ _ => ⟨0x3000, 0xF000⟩
  | .sneVxByte _ _ => ⟨0x4000, 0xF000⟩
  | .seVxVy _ _ => ⟨0x5000, 0xF00F⟩
  | .ldVxByte _ _ => ⟨0x6000, 0xF000⟩
  | .addVxByte _ _ => ⟨0x7000, 0xF000⟩
  | .ldVxVy _ _ => ⟨0x8000, 0xF00F⟩
  | .orVxVy _ _ => ⟨0x8001, 0xF00F⟩
  | .andVxVy _ _ => ⟨0x8002, 0xF00F⟩
  | .xorVxVy _ _ => ⟨0x8003, 0xF00F⟩
  | .addVxVy _ _ => ⟨0x8004, 0xF00F⟩
  | .subVxVy _ _ => ⟨0x8005, 0xF00F⟩
  | .shrVx _ _ => ⟨0x8006, 0xF00F⟩
  | .subnVxVy _ _ => ⟨0x8007, 0xF00F⟩
  | .shlVx _ _ => ⟨0x800E, 0xF00F⟩
  | .sneVxVy _ _ => ⟨0x9000, 0xF00F⟩
  | .ldIAddr _ => ⟨0xA000, 0xF000⟩
  | .jpV0Addr _ => ⟨0xB000, 0xF000⟩
  | .rndVxByte _ _ => ⟨0xC000, 0xF000⟩
  | .drwVxVyNibble _ _ _ => ⟨0xD000, 0xF000⟩
  | .skpVx _ => ⟨0xE09E, 0xF0FF⟩
  | .sknpVx _ => ⟨0xE0A1, 0xF0FF⟩
  | .ldVxDt _ => ⟨0xF007, 0xF0FF⟩
  | .ldVxK _ => ⟨0xF00A, 0xF0FF⟩
  | .ldDtVx _ => ⟨0xF015, 0xF0FF⟩
  | .ldStVx _ => ⟨0xF018, 0xF0FF⟩
  | .addIVx _ => ⟨0xF01E, 0xF0FF⟩
  | .ldFVx _ => ⟨0xF029, 0xF0FF⟩
  | .ldBVx _ => ⟨0xF033, 0xF0FF⟩
  | .ldIndVx _ => ⟨0xF055, 0xF0FF⟩
  | .ldVxInd _ => ⟨0xF065, 0xF0FF⟩
  | .sysAddr _ => ⟨0x0000, 0xF000⟩

/-- The 34 rows of R84, in its order. -/
def opcodeMap : List OpcodeRow :=
  [⟨0x00E0, 0xFFFF⟩, ⟨0x00EE, 0xFFFF⟩, ⟨0x1000, 0xF000⟩, ⟨0x2000, 0xF000⟩, ⟨0x3000, 0xF000⟩,
   ⟨0x4000, 0xF000⟩, ⟨0x5000, 0xF00F⟩, ⟨0x6000, 0xF000⟩, ⟨0x7000, 0xF000⟩]
  ++ [⟨0x8000, 0xF00F⟩, ⟨0x8001, 0xF00F⟩, ⟨0x8002, 0xF00F⟩, ⟨0x8003, 0xF00F⟩, ⟨0x8004, 0xF00F⟩,
   ⟨0x8005, 0xF00F⟩, ⟨0x8006, 0xF00F⟩, ⟨0x8007, 0xF00F⟩, ⟨0x800E, 0xF00F⟩, ⟨0x9000, 0xF00F⟩]
  ++ [⟨0xA000, 0xF000⟩, ⟨0xB000, 0xF000⟩, ⟨0xC000, 0xF000⟩, ⟨0xD000, 0xF000⟩, ⟨0xE09E, 0xF0FF⟩,
   ⟨0xE0A1, 0xF0FF⟩]
  ++ [⟨0xF007, 0xF0FF⟩, ⟨0xF00A, 0xF0FF⟩, ⟨0xF015, 0xF0FF⟩, ⟨0xF018, 0xF0FF⟩, ⟨0xF01E, 0xF0FF⟩,
   ⟨0xF029, 0xF0FF⟩, ⟨0xF033, 0xF0FF⟩, ⟨0xF055, 0xF0FF⟩, ⟨0xF065, 0xF0FF⟩]

/-- The bytes of the instruction whose bits, numbered as spec/opcode_table.json numbers them, are `w`: its one 16-bit word,
stored big-endian (R58); bits at `nbits` and above are 0. -/
def tableWordBytes (nbits w : Nat) : List Byte := bytesOfWord (BitVec.ofNat 16 (w % 2 ^ nbits))

/-- The instruction the decoder reads from a table word. -/
def decodeTableWord (nbits w : Nat) : Option Instr :=
  match decodeBytes (tableWordBytes nbits w) with
  | .ok (i, _) => some i
  | .error _ => none

end Sys2Proof
end

