-- ==== Sys2Proof/Config.lean ====
section
/-! DEFINITION. The block's parameters (spec 00_scope.md R9, R10), its configuration inputs (10_state.md R36, R48) and its free values. -/

namespace Sys2Proof

/-- `GLYPH_STORE_POLICY` (R9, R56; OPEN, D7): what an engine store into 0x000 to 0x1FF does. -/
inductive GlyphStorePolicy
  | fault
  | allow
  deriving DecidableEq, Repr, Inhabited

/-- `ODD_PC_POLICY` (R9, R101; OPEN, D6): what fetching at an odd PC does. -/
inductive OddPcPolicy
  | fault
  | fetch
  deriving DecidableEq, Repr, Inhabited

/-- The configuration inputs of the block (R36): the four OPEN parameters of 92_eei_decisions.md. -/
structure Config where
  /-- `GLYPHS`: the 80 bytes of the 16 glyphs, glyph k at bytes 5k to 5k+4 (R52; OPEN, D3). -/
  glyphs : Vector Byte 80
  glyphStore : GlyphStorePolicy
  oddPc : OddPcPolicy
  /-- `IPS`: instructions per second, set by the host (R48; OPEN, D16). -/
  ips : Nat
  deriving DecidableEq, Repr, Inhabited

/-- The configuration the block is built with. FREE VALUE (log 1, DESIGN CHOICE): the spec leaves all four parameters open,
so nothing in Lean can evaluate it. -/
opaque Config.board : Config

/-- The byte `RAND` of the n-th draw (R44; D11). FREE VALUE (log 2, DESIGN CHOICE): under no law. -/
opaque Config.rand : Nat → Byte

/-- `MEM_SIZE` (R9). -/
abbrev memSize : Nat := 4096
/-- `PROG_BASE` (R9). -/
abbrev progBase : Nat := 0x200
/-- `MAX_PROG` (R9). -/
abbrev maxProg : Nat := 3584
/-- The size of the glyph table, `GLYPH_COUNT * GLYPH_BYTES` (R9). -/
abbrev glyphBytes : Nat := 80
/-- `RESERVED_TOP` (R9). -/
abbrev reservedTop : Nat := 0x1FF
/-- `W` (R9). -/
abbrev dispWidth : Nat := 64
/-- `H` (R9). -/
abbrev dispHeight : Nat := 32

end Sys2Proof
end

