-- ==== Sys2Proof/Machine/State.lean ====
section
/-! DEFINITION. The machine's state as plain data (spec 10_state.md; INVENTORY.md, State), its diagnostics and statuses (60_exceptions.md R230, R231), and the state right after reset (R37, R271). -/

namespace Sys2Proof.Machine

/-- The kind of access an `AddressFault` reports (R231). -/
inductive Access
  | fetch
  | read
  | write
  deriving DecidableEq, Repr

/-- The diagnostic kinds with their info values (R230, R231). None of them stops the machine (R41). -/
inductive Diagnostic
  /-- The 16-bit word (R106). -/
  | unmappedOpcode (w : Word)
  /-- The address of the CALL (R122). -/
  | stackOverflow (callAt : Word)
  /-- The address of the RET (R120). -/
  | stackUnderflow (retAt : Word)
  /-- The lowest failing address, as a natural number, and the access (R57, R232). -/
  | addressFault (addr : Nat) (access : Access)
  /-- The offending value of VX (R210, R211). -/
  | keyIndexFault (vx : Byte)
  /-- The rejected length in bytes (R273). -/
  | loadTooLarge (len : Nat)
  deriving DecidableEq, Repr

/-- One report on the status output (R40). -/
inductive Status
  | ok
  | diag (d : Diagnostic)
  deriving DecidableEq, Repr

/-- Why a step would stop with a fault. There is no constructor: no rule of the spec stops the block, "The block never halts
itself on a diagnostic" (R41), so nothing raises a fault. Each diagnostic is a next state (log 3, unsafe: the model goes on
where a host may stop). -/
inductive Fault
  deriving DecidableEq, Repr

/-- Why a step would refuse. -/
inductive Refusal
  /-- Raised by no arm of exec at present; it would be raised by the arm of an instruction that has no meaning yet. Safe. -/
  | notModelled (mnemonic : String)
  deriving DecidableEq, Repr

/-- `MEM` as (address, byte) pairs, addresses strictly rising, no pair equal to what an unlisted address reads as. -/
abbrev Memory := List Host.Cell

/-- `DISP`, row y holding the pixels of columns 0 to 63 (R31, R13: `DISP[y][x]`). -/
abbrev Display := Vector (Vector Bool 64) 32

structure State where
  /-- V0 to VF (R20). -/
  v : Vector Byte 16
  /-- I (R24). -/
  index : Word
  /-- PC (R25). -/
  pc : Word
  /-- STACK[0..11] (R27). -/
  stack : Vector Word 12
  /-- SP, the number of live entries (R28). -/
  sp : Fin 13
  /-- DT (R29). -/
  dt : Byte
  /-- ST (R30). -/
  st : Byte
  /-- DISP (R31). -/
  disp : Display
  /-- KEY[0..15] (R32). -/
  key : Vector Bool 16
  /-- MEM (R50). -/
  mem : Memory
  /-- ROM_IMAGE (R35). -/
  romImage : List Byte
  /-- The configuration inputs (R36, R48): beside Machine State, so that a statement about every state covers every value
  (log 1). -/
  config : Config
  /-- The status output of the last command (R40). -/
  report : List Status
  /-- The sound output as last sampled (R47, R250). -/
  soundOn : Bool
  /-- The model's own: how many `RAND` bytes have been drawn (log 2). -/
  draws : Nat
  /-- The model's own: the first diagnostic ever reported, never cleared (D20; log 3). -/
  diagSeen : Option Diagnostic
  deriving DecidableEq, Repr

/-- Right after power-up: a reset with an empty `ROM_IMAGE` (R37, R271), nothing reported yet (log 5), no sound sampled yet
(log 6), no byte drawn (log 2), no diagnostic seen (log 3), the configuration open (log 1). -/
def State.reset : State where
  v := Vector.replicate 16 0
  index := 0
  pc := 0x200
  stack := Vector.replicate 12 0
  sp := 0
  dt := 0
  st := 0
  disp := Vector.replicate 32 (Vector.replicate 64 false)
  key := Vector.replicate 16 false
  mem := []
  romImage := []
  config := Config.board
  report := []
  soundOn := false
  draws := 0
  diagSeen := none

end Sys2Proof.Machine
end

