-- ==== Sys2Proof/Machine/Ops.lean ====
section
/-! DEFINITION. The named operations over memory, registers, display and status (spec 20_memory.md R50 to R58; 00_scope.md R13, R14), the fetch (40_engine.md R101, R102), and raising a diagnostic (R107; 60_exceptions.md R234), which is this machine's only exception. It has no return from one (R235). -/

namespace Sys2Proof.Machine

/-! ### Memory -/

/-- What an unlisted address reads as: the memory's content after reset with no program (R37, R271). -/
def unlistedByte (c : Config) (a : Nat) : Byte :=
  if h : a < 80 then c.glyphs[a] else 0

/-- The byte at an address. -/
def Memory.read (c : Config) : Memory → Nat → Byte
  | [], a => unlistedByte c a
  | (a', b) :: m, a => if a = a' then b else Memory.read c m a

/-- A pair before the rest of a memory, unless it says what an unlisted address says. -/
def Memory.keep (c : Config) (a : Nat) (b : Byte) (m : Memory) : Memory :=
  if b = unlistedByte c a then m else (a, b) :: m

/-- Write one byte, keeping the canonical form. -/
def Memory.write (c : Config) : Memory → Nat → Byte → Memory
  | [], a, b => Memory.keep c a b []
  | (a', b') :: m, a, b =>
    if a < a' then Memory.keep c a b ((a', b') :: m)
    else if a = a' then Memory.keep c a b m
    else (a', b') :: Memory.write c m a b

/-- Write bytes at consecutive addresses, the first at `base` (R14). -/
def Memory.writeBytes (c : Config) : Memory → Nat → List Byte → Memory
  | m, _, [] => m
  | m, base, b :: bs => Memory.writeBytes c (Memory.write c m base b) (base + 1) bs

/-- The canonical form: addresses strictly rising and inside the 4096 bytes, no pair that says what an unlisted address says. -/
abbrev Memory.wf (c : Config) (m : Memory) : Prop :=
  m.Pairwise (fun p q => p.1 < q.1) ∧ ∀ p ∈ m, p.1 < memSize ∧ p.2 ≠ unlistedByte c p.1

/-- The byte at an address of the machine's memory. -/
def State.byteAt (s : State) (a : Nat) : Byte := Memory.read s.config s.mem a

/-- R55: some address of the n-byte access at `base` is 4096 or more; the lowest such address is reported. -/
def checkRange (base n : Nat) (k : Access) : Except Diagnostic Unit :=
  if n = 0 ∨ base + n ≤ memSize then .ok () else .error (.addressFault (max base memSize) k)

/-- R56: under `GLYPH_STORE_POLICY = fault` an engine store at 0x1FF or below is reported with its lowest address. -/
def checkGlyphStore (p : GlyphStorePolicy) (base n : Nat) : Except Diagnostic Unit :=
  if n = 0 ∨ reservedTop < base then .ok ()
  else match p with
    | .allow => .ok ()
    | .fault => .error (.addressFault base .write)

/-- `MemRead(base, n)` (R14): the whole access is checked first. -/
def memRead (s : State) (base n : Nat) : Except Diagnostic (List Byte) :=
  match checkRange base n .read with
  | .error d => .error d
  | .ok _ => .ok ((List.range n).map fun k => s.byteAt (base + k))

/-- `MemWrite(base, n, bytes)` (R14): the whole access is checked first. -/
def memWrite (s : State) (base : Nat) (bytes : List Byte) : Except Diagnostic State :=
  match checkRange base bytes.length .write with
  | .error d => .error d
  | .ok _ =>
    match checkGlyphStore s.config.glyphStore base bytes.length with
    | .error d => .error d
    | .ok _ => .ok { s with mem := Memory.writeBytes s.config s.mem base bytes }

/-! ### Registers, stack, program counter -/

/-- `V[x]` (R13). -/
def State.reg (s : State) (x : Reg) : Byte := s.v[x]

/-- `V[x] <- b` (R13). No register is hard-wired (R20). -/
def State.setReg (s : State) (x : Reg) (b : Byte) : State := { s with v := s.v.set x b }

/-- `PC <- PC + 2`: the fetch advance (R102) and a skip (R109). -/
def State.advance (s : State) : State := { s with pc := s.pc + 2 }

/-- A skip when the condition holds (R109). -/
def State.skipIf (s : State) (b : Bool) : State := if b then s.advance else s

/-- Push a return address (R122). -/
def push (s : State) (a : Word) : Except Diagnostic State :=
  if h : s.sp.val = 12 then .error (.stackOverflow (s.pc - 2))
  else .ok { s with
    stack := s.stack.set s.sp.val a (by have := s.sp.isLt; omega)
    sp := ⟨s.sp.val + 1, by have := s.sp.isLt; omega⟩ }

/-- Pop the top return address into PC; the slot keeps its value (R120, R28). -/
def popPc (s : State) : Except Diagnostic State :=
  if h : s.sp.val = 0 then .error (.stackUnderflow (s.pc - 2))
  else .ok { s with
    sp := ⟨s.sp.val - 1, by have := s.sp.isLt; omega⟩
    pc := s.stack[s.sp.val - 1]'(by have := s.sp.isLt; omega) }

/-! ### Display -/

/-- `DISP[y][x]`; off outside the 64 x 32 pixels. -/
def Display.pixel (d : Display) (x y : Nat) : Bool :=
  if h : x < 64 ∧ y < 32 then (d[y]'h.2)[x]'h.1 else false

/-- `DISP[y][x] <- b`; nothing outside the 64 x 32 pixels. -/
def Display.setPixel (d : Display) (x y : Nat) (b : Bool) : Display :=
  if h : x < 64 ∧ y < 32 then Vector.set d y (Vector.set (d[y]'h.2) x b h.1) h.2 else d

/-- Every pixel off (R190). -/
def Display.clear : Display := Vector.replicate 32 (Vector.replicate 64 false)

/-! ### Status and diagnostics -/

/-- `status <- OK` (R100, R105). -/
def State.complete (s : State) : State := { s with report := [.ok] }

/-- Take a diagnostic: it appears on the status output and changes nothing else of the machine (R107, R234); the model also
records the first one for good (D20; log 3). -/
def State.raise (s : State) (d : Diagnostic) : State :=
  { s with
    report := [.diag d]
    diagSeen := match s.diagSeen with
      | none => some d
      | some e => some e }

/-- The end of an instruction that raises nothing (R105). -/
def finish (t : State) : Host.Outcome State Fault Refusal := .next t.complete

/-- The end of an instruction that may raise: all of its writes, or none of them and the diagnostic (R107). `s` is the state
after the fetch advance. -/
def conclude (s : State) (r : Except Diagnostic State) : Host.Outcome State Fault Refusal :=
  .next (match r with
    | .ok t => t.complete
    | .error d => s.raise d)

/-! ### Fetch -/

/-- The fetch with its two checks in their order, alignment before range (R100, R101, R233). -/
def fetch (s : State) : Except Diagnostic Word :=
  if s.pc.toNat % 2 = 1 ∧ s.config.oddPc = .fault then .error (.addressFault s.pc.toNat .fetch)
  else if memSize ≤ s.pc.toNat + 1 then .error (.addressFault (max s.pc.toNat memSize) .fetch)
  else .ok (wordOfBytes (s.byteAt s.pc.toNat) (s.byteAt (s.pc.toNat + 1)))

end Sys2Proof.Machine
end

