-- ==== Sys2Proof/Machine/Operands.lean ====
section
/-! DEFINITION. The operand forms (spec 30_encoding.md R81; 43_index_memory.md; 44_display.md): immediates and registers widened, the glyph address, decimal digits, the registers V0 to VX, the sprite's origin and bits. -/

namespace Sys2Proof.Machine

/-- `zext_16(NNN)` (R81). -/
def zextAddr (nnn : Addr) : Word := nnn.zeroExtend 16

/-- `zext_16(v)` of an 8-bit value (R12). -/
def zextByte (b : Byte) : Word := b.zeroExtend 16

/-- The base address of a data access, I as an exact integer (R54). -/
def State.base (s : State) : Nat := s.index.toNat

/-- The glyph address of FX29: five bytes a glyph (R172). -/
def glyphAddr (b : Byte) : Word := zextByte b * 5

/-- The hundreds, tens and ones of FX33 (R174). -/
def decimalDigits (b : Byte) : List Byte :=
  [BitVec.ofNat 8 (b.toNat / 100), BitVec.ofNat 8 (b.toNat / 10 % 10), BitVec.ofNat 8 (b.toNat % 10)]

/-- The values of V0 to VX, V0 first (R175). -/
def State.regsTo (s : State) (x : Reg) : List Byte := s.v.toList.take (x.val + 1)

/-- Bytes into registers from V[k] on (R176). -/
def loadRegs : Nat → List Byte → Vector Byte 16 → Vector Byte 16
  | _, [], v => v
  | k, b :: bs, v => loadRegs (k + 1) bs (if h : k < 16 then v.set k b h else v)

/-- The sprite's left column, VX modulo the width (R191, R192). -/
def State.originX (s : State) (x : Reg) : Nat := (s.reg x).toNat % dispWidth

/-- The sprite's top row, VY modulo the height (R191, R192). -/
def State.originY (s : State) (y : Reg) : Nat := (s.reg y).toNat % dispHeight

/-- The bits of a sprite row from left to right: the most significant bit is the leftmost pixel (R52, R191). -/
def rowBits (b : Byte) : List Bool :=
  [b.getLsbD 7, b.getLsbD 6, b.getLsbD 5, b.getLsbD 4, b.getLsbD 3, b.getLsbD 2, b.getLsbD 1, b.getLsbD 0]

/-- The first pressed key in ascending order (R213). -/
def firstPressed (key : Vector Bool 16) : Option Reg := (List.finRange 16).find? fun k => key[k]

end Sys2Proof.Machine
end

