-- ==== Sys2Proof/Machine/Alu.lean ====
section
/-! DEFINITION. Register loads and arithmetic (spec 42_alu.md): 6XNN, 7XNN, 8XY0 to 8XYE, CXNN. -/

namespace Sys2Proof.Machine

/-- The result into V[x], then the flag into VF, so that the flag wins (R23). -/
def State.setResultAndFlag (s : State) (x : Reg) (result flag : Byte) : State :=
  (s.setReg x result).setReg regF flag

/-- 6XNN (R140). -/
def execLdVxByte (x : Reg) (nn : Byte) (s : State) : Host.Outcome State Fault Refusal :=
  finish (s.setReg x nn)

/-- 7XNN (R141): no flag. -/
def execAddVxByte (x : Reg) (nn : Byte) (s : State) : Host.Outcome State Fault Refusal :=
  finish (s.setReg x (s.reg x + nn))

/-- 8XY0 (R142). -/
def execLdVxVy (x y : Reg) (s : State) : Host.Outcome State Fault Refusal :=
  finish (s.setReg x (s.reg y))

/-- 8XY1 (R143): VF is not written (D12). -/
def execOrVxVy (x y : Reg) (s : State) : Host.Outcome State Fault Refusal :=
  finish (s.setReg x (s.reg x ||| s.reg y))

/-- 8XY2 (R144): VF is not written (D12). -/
def execAndVxVy (x y : Reg) (s : State) : Host.Outcome State Fault Refusal :=
  finish (s.setReg x (s.reg x &&& s.reg y))

/-- 8XY3 (R145): VF is not written (D12). -/
def execXorVxVy (x y : Reg) (s : State) : Host.Outcome State Fault Refusal :=
  finish (s.setReg x (s.reg x ^^^ s.reg y))

/-- 8XY4 (R146). -/
def execAddVxVy (x y : Reg) (s : State) : Host.Outcome State Fault Refusal :=
  finish (s.setResultAndFlag x (s.reg x + s.reg y) (carryFlag (s.reg x) (s.reg y)))

/-- 8XY5 (R147). -/
def execSubVxVy (x y : Reg) (s : State) : Host.Outcome State Fault Refusal :=
  finish (s.setResultAndFlag x (s.reg x - s.reg y) (noBorrowFlag (s.reg x) (s.reg y)))

/-- 8XY6 (R148): Y is ignored. -/
def execShrVx (x : Reg) (s : State) : Host.Outcome State Fault Refusal :=
  finish (s.setResultAndFlag x (s.reg x >>> 1) (shiftedOutRight (s.reg x)))

/-- 8XY7 (R149). -/
def execSubnVxVy (x y : Reg) (s : State) : Host.Outcome State Fault Refusal :=
  finish (s.setResultAndFlag x (s.reg y - s.reg x) (noBorrowFlag (s.reg y) (s.reg x)))

/-- 8XYE (R150): Y is ignored. -/
def execShlVx (x : Reg) (s : State) : Host.Outcome State Fault Refusal :=
  finish (s.setResultAndFlag x (s.reg x <<< 1) (shiftedOutLeft (s.reg x)))

/-- The effect of CXNN when the step's free byte is `rand` (R151). -/
def rndWith (rand : Byte) (x : Reg) (nn : Byte) (s : State) : State := s.setReg x (rand &&& nn)

/-- CXNN (R151): the byte drawn is free (R44; log 2), and the next draw is another one. -/
def execRndVxByte (x : Reg) (nn : Byte) (s : State) : Host.Outcome State Fault Refusal :=
  finish { rndWith (Config.rand s.draws) x nn s with draws := s.draws + 1 }

end Sys2Proof.Machine
end

