-- ==== Sys2Proof/Machine/ControlFlow.lean ====
section
/-! DEFINITION. Control flow (spec 41_control_flow.md): RET, JP, CALL, the skips, JP V0. Each runs on the state after the fetch advance, so PC is the instruction's address + 2 (40_engine.md R102). -/

namespace Sys2Proof.Machine

/-- 00EE (R120). -/
def execRet (s : State) : Host.Outcome State Fault Refusal := conclude s (popPc s)

/-- 1NNN (R121). -/
def execJpAddr (nnn : Addr) (s : State) : Host.Outcome State Fault Refusal :=
  finish { s with pc := zextAddr nnn }

/-- 2NNN (R122): the pushed value is the fetch-advanced PC. -/
def execCallAddr (nnn : Addr) (s : State) : Host.Outcome State Fault Refusal :=
  conclude s (match push s s.pc with
    | .ok t => .ok { t with pc := zextAddr nnn }
    | .error d => .error d)

/-- 3XNN (R123). -/
def execSeVxByte (x : Reg) (nn : Byte) (s : State) : Host.Outcome State Fault Refusal :=
  finish (s.skipIf (s.reg x == nn))

/-- 4XNN (R124). -/
def execSneVxByte (x : Reg) (nn : Byte) (s : State) : Host.Outcome State Fault Refusal :=
  finish (s.skipIf (s.reg x != nn))

/-- 5XY0 (R125). -/
def execSeVxVy (x y : Reg) (s : State) : Host.Outcome State Fault Refusal :=
  finish (s.skipIf (s.reg x == s.reg y))

/-- 9XY0 (R126). -/
def execSneVxVy (x y : Reg) (s : State) : Host.Outcome State Fault Refusal :=
  finish (s.skipIf (s.reg x != s.reg y))

/-- BNNN (R127): the exact sum with V0. -/
def execJpV0Addr (nnn : Addr) (s : State) : Host.Outcome State Fault Refusal :=
  finish { s with pc := zextAddr nnn + zextByte (s.reg 0) }

end Sys2Proof.Machine
end

