-- ==== Sys2Proof/Machine/Display.lean ====
section
/-! DEFINITION. Display (spec 44_display.md): 00E0 and DXYN with the draw unit. -/

namespace Sys2Proof.Machine

/-- 00E0 (R190). -/
def execCls (s : State) : Host.Outcome State Fault Refusal := finish { s with disp := Display.clear }

/-- One sprite bit at column x, row y: the collision is noted before the pixel is modified (R191). The pair is the display
and whether a collision was seen so far. -/
def drawBit (x y : Nat) (bit : Bool) (p : Display × Bool) : Display × Bool :=
  (Display.setPixel p.1 x y (Display.pixel p.1 x y ^^ bit), p.2 || (bit && Display.pixel p.1 x y))

/-- The bits of one sprite row from column x on; the row stops at x = W (R191, R193). -/
def drawRow (y : Nat) : Nat → List Bool → Display × Bool → Display × Bool
  | _, [], p => p
  | x, b :: bs, p => if x = dispWidth then p else drawRow y (x + 1) bs (drawBit x y b p)

/-- The sprite rows from row y on, each from column ox on; drawing stops at y = H (R191, R193). -/
def drawRows (ox : Nat) : Nat → List Byte → Display × Bool → Display × Bool
  | _, [], p => p
  | y, r :: rs, p => if y = dispHeight then p else drawRows ox (y + 1) rs (drawRow y ox (rowBits r) p)

/-- The XOR draw of sprite rows at an origin: the new display, and whether a drawn set bit hit a pixel that was on (R191). -/
def draw (d : Display) (ox oy : Nat) (rows : List Byte) : Display × Bool := drawRows ox oy rows (d, false)

/-- DXYN (R191): the whole sprite is read, and so checked, before VF or any pixel is written. -/
def execDrwVxVyNibble (x y : Reg) (n : Nibble) (s : State) : Host.Outcome State Fault Refusal :=
  conclude s (match memRead s s.base n.toNat with
    | .error d => .error d
    | .ok rows =>
      let drawn := draw s.disp (s.originX x) (s.originY y) rows
      .ok { s.setReg regF (flagByte drawn.2) with disp := drawn.1 })

end Sys2Proof.Machine
end

