-- ==== Sys2Proof/Machine/IndexMemory.lean ====
section
/-! DEFINITION. Index register and memory transfers (spec 43_index_memory.md): ANNN, FX1E, FX29, FX33, FX55, FX65. -/

namespace Sys2Proof.Machine

/-- ANNN (R170). -/
def execLdIAddr (nnn : Addr) (s : State) : Host.Outcome State Fault Refusal :=
  finish { s with index := zextAddr nnn }

/-- FX1E (R171): modulo 65536, no flag. -/
def execAddIVx (x : Reg) (s : State) : Host.Outcome State Fault Refusal :=
  finish { s with index := s.index + zextByte (s.reg x) }

/-- FX29 (R172): the full 8-bit VX. -/
def execLdFVx (x : Reg) (s : State) : Host.Outcome State Fault Refusal :=
  finish { s with index := glyphAddr (s.reg x) }

/-- FX33 (R174). -/
def execLdBVx (x : Reg) (s : State) : Host.Outcome State Fault Refusal :=
  conclude s (memWrite s s.base (decimalDigits (s.reg x)))

/-- FX55 (R175): I is left unmodified. -/
def execLdIndVx (x : Reg) (s : State) : Host.Outcome State Fault Refusal :=
  conclude s (memWrite s s.base (s.regsTo x))

/-- FX65 (R176): I is left unmodified. -/
def execLdVxInd (x : Reg) (s : State) : Host.Outcome State Fault Refusal :=
  conclude s (match memRead s s.base (x.val + 1) with
    | .ok bytes => .ok { s with v := loadRegs 0 bytes s.v }
    | .error d => .error d)

end Sys2Proof.Machine
end

