-- ==== Sys2Proof/Machine/KeypadTimer.lean ====
section
/-! DEFINITION. Keypad and timers (spec 45_keypad_timer.md): EX9E, EXA1, FX07, FX0A, FX15, FX18. -/

namespace Sys2Proof.Machine

/-- The latch that a register's value names, or the diagnostic (R210, R211; D14). -/
def keyNamed (s : State) (k : Byte) : Except Diagnostic Bool :=
  if h : k.toNat < 16 then .ok s.key[k.toNat] else .error (.keyIndexFault k)

/-- EX9E (R210). -/
def execSkpVx (x : Reg) (s : State) : Host.Outcome State Fault Refusal :=
  conclude s (match keyNamed s (s.reg x) with
    | .ok pressed => .ok (s.skipIf pressed)
    | .error d => .error d)

/-- EXA1 (R211). -/
def execSknpVx (x : Reg) (s : State) : Host.Outcome State Fault Refusal :=
  conclude s (match keyNamed s (s.reg x) with
    | .ok pressed => .ok (s.skipIf (!pressed))
    | .error d => .error d)

/-- FX07 (R212). -/
def execLdVxDt (x : Reg) (s : State) : Host.Outcome State Fault Refusal := finish (s.setReg x s.dt)

/-- FX0A (R213): with no key pressed PC is rewound, so the instruction runs again (R112). -/
def execLdVxK (x : Reg) (s : State) : Host.Outcome State Fault Refusal :=
  finish (match firstPressed s.key with
    | some k => s.setReg x (BitVec.ofNat 8 k.val)
    | none => { s with pc := s.pc - 2 })

/-- FX15 (R214). -/
def execLdDtVx (x : Reg) (s : State) : Host.Outcome State Fault Refusal := finish { s with dt := s.reg x }

/-- FX18 (R215). -/
def execLdStVx (x : Reg) (s : State) : Host.Outcome State Fault Refusal := finish { s with st := s.reg x }

end Sys2Proof.Machine
end

