-- ==== Sys2Proof/Machine/System.lean ====
section
/-! DEFINITION. Row 35 of the opcode table, 0NNN (SYS addr): unmapped (spec 30_encoding.md R85; 60_exceptions.md R240). -/

namespace Sys2Proof.Machine

/-- An unmapped word: nothing but the report, on the state after the fetch advance (R106). -/
def unmapped (w : Word) (s : State) : Host.Outcome State Fault Refusal := .next (s.raise (.unmappedOpcode w))

/-- 0NNN (R106): the word is 0NNN itself. -/
def execSysAddr (nnn : Addr) (s : State) : Host.Outcome State Fault Refusal := unmapped (encode (.sysAddr nnn)) s

end Sys2Proof.Machine
end

