-- ==== Sys2Proof/Machine/Step.lean ====
section
/-! DEFINITION. One engine step (spec 40_engine.md R100), the command STEP (10_state.md R39). -/

namespace Sys2Proof.Machine

/-- Fetch, advance, decode, dispatch (R100). A fetch fault changes nothing (R101); an unmapped word only advances PC (R106). -/
def step (s : State) : Host.Outcome State Fault Refusal :=
  match fetch s with
  | .error d => .next (s.raise d)
  | .ok w =>
    match decode w with
    | .error _ => unmapped w s.advance
    | .ok i => exec i s.advance

/-- `s` with the instruction of a table word stored where `step` fetches its next instruction, at PC (log 4). Where no
instruction can be fetched at PC (R101: PC + 1 must be below 4096) nothing is stored. -/
def State.withFetchWord (s : State) (nbits w : Nat) : State :=
  if s.pc.toNat + 1 < memSize then
    { s with mem := Memory.writeBytes s.config s.mem s.pc.toNat (tableWordBytes nbits w) }
  else s

end Sys2Proof.Machine
end

