-- ==== Sys2Proof/Machine/Mnemonic.lean ====
section
/-! DEFINITION. The mnemonic decode port `Mnemonic(w) -> (name, operands)` (spec 10_state.md R43; 30_encoding.md R92): it reads no state, and goes through the machine's own decoder. -/

namespace Sys2Proof.Machine

/-- One operand of a printed instruction (R92). -/
inductive Operand
  | reg (x : Reg)
  | byte (nn : Byte)
  | addr (nnn : Addr)
  | nibble (n : Nibble)
  /-- A raw word, the operand of UNMAPPED. -/
  | word (w : Word)
  | i
  | dt
  | st
  | k
  | f
  | b
  | indirect
  deriving DecidableEq, Repr

/-- A hex digit. R92 says upper-case for the register's digit only; that the digits of byte, addr, nibble and the raw word are
printed upper-case too is the model's DESIGN CHOICE (log 10). -/
def hexDigit (n : Nat) : String :=
  match n % 16 with
  | 0 => "0" | 1 => "1" | 2 => "2" | 3 => "3" | 4 => "4" | 5 => "5" | 6 => "6" | 7 => "7"
  | 8 => "8" | 9 => "9" | 10 => "A" | 11 => "B" | 12 => "C" | 13 => "D" | 14 => "E" | _ => "F"

/-- The last `digits` hex digits of a number, the high ones first. -/
def hexDigits : Nat → Nat → String
  | 0, _ => ""
  | digits + 1, n => hexDigits digits (n / 16) ++ hexDigit n

/-- The spelling of an operand (R92; the letter case of the digits after `0x` is log 10). -/
def Operand.spelling : Operand → String
  | .reg x => "V" ++ hexDigit x.val
  | .byte nn => "0x" ++ hexDigits 2 nn.toNat
  | .addr nnn => "0x" ++ hexDigits 3 nnn.toNat
  | .nibble n => "0x" ++ hexDigits 1 n.toNat
  | .word w => "0x" ++ hexDigits 4 w.toNat
  | .i => "I"
  | .dt => "DT"
  | .st => "ST"
  | .k => "K"
  | .f => "F"
  | .b => "B"
  | .indirect => "[I]"

/-- The name and operands of an instruction, the name column of R84; 0NNN is UNMAPPED like every word of no row (R85, R92). -/
def instrMnemonic : Instr → String × List Operand
  | .cls => ("CLS", [])
  | .ret => ("RET", [])
  | .jpAddr nnn => ("JP", [.addr nnn])
  | .callAddr nnn => ("CALL", [.addr nnn])
  | .seVxByte x nn => ("SE", [.reg x, .byte nn])
  | .sneVxByte x nn => ("SNE", [.reg x, .byte nn])
  | .seVxVy x y => ("SE", [.reg x, .reg y])
  | .ldVxByte x nn => ("LD", [.reg x, .byte nn])
  | .addVxByte x nn => ("ADD", [.reg x, .byte nn])
  | .ldVxVy x y => ("LD", [.reg x, .reg y])
  | .orVxVy x y => ("OR", [.reg x, .reg y])
  | .andVxVy x y => ("AND", [.reg x, .reg y])
  | .xorVxVy x y => ("XOR", [.reg x, .reg y])
  | .addVxVy x y => ("ADD", [.reg x, .reg y])
  | .subVxVy x y => ("SUB", [.reg x, .reg y])
  | .shrVx x _ => ("SHR", [.reg x])
  | .subnVxVy x y => ("SUBN", [.reg x, .reg y])
  | .shlVx x _ => ("SHL", [.reg x])
  | .sneVxVy x y => ("SNE", [.reg x, .reg y])
  | .ldIAddr nnn => ("LD", [.i, .addr nnn])
  | .jpV0Addr nnn => ("JP", [.reg 0, .addr nnn])
  | .rndVxByte x nn => ("RND", [.reg x, .byte nn])
  | .drwVxVyNibble x y n => ("DRW", [.reg x, .reg y, .nibble n])
  | .skpVx x => ("SKP", [.reg x])
  | .sknpVx x => ("SKNP", [.reg x])
  | .ldVxDt x => ("LD", [.reg x, .dt])
  | .ldVxK x => ("LD", [.reg x, .k])
  | .ldDtVx x => ("LD", [.dt, .reg x])
  | .ldStVx x => ("LD", [.st, .reg x])
  | .addIVx x => ("ADD", [.i, .reg x])
  | .ldFVx x => ("LD", [.f, .reg x])
  | .ldBVx x => ("LD", [.b, .reg x])
  | .ldIndVx x => ("LD", [.indirect, .reg x])
  | .ldVxInd x => ("LD", [.reg x, .indirect])
  | .sysAddr nnn => ("UNMAPPED", [.word (encode (.sysAddr nnn))])

/-- `Mnemonic(w)` (R43, R92): the same row as the dispatch of R84. -/
def mnemonic (w : Word) : String × List Operand :=
  match decode w with
  | .ok i => instrMnemonic i
  | .error _ => ("UNMAPPED", [.word w])

end Sys2Proof.Machine
end

