-- ==== Sys2Proof/Machine/ClockDivider.lean ====
section
/-! DEFINITION. The clock divider (spec 60_exceptions.md R250 to R253, R236), the command TICK (10_state.md R39). -/

namespace Sys2Proof.Machine

/-- `STEPS_PER_TICK = IPS div 60` (00_scope.md R10; R253). -/
def State.stepsPerTick (s : State) : Nat := s.config.ips / 60

/-- One lower, or 0 at 0 (R251). -/
def countDown (b : Byte) : Byte := if b = 0 then 0 else b - 1

/-- The timer decrement at the start of a tick (R250). -/
def State.decrementTimers (s : State) : State := { s with dt := countDown s.dt, st := countDown s.st }

/-- Exactly n engine steps, every step's status reported in order; a diagnostic does not stop the batch (R236, R40). -/
def batch : Nat → State → Host.Outcome State Fault Refusal
  | 0, s => .next { s with report := [] }
  | n + 1, s =>
    match step s with
    | .fault r => .fault r
    | .refused r => .refused r
    | .next t =>
      match batch n t with
      | .fault r => .fault r
      | .refused r => .refused r
      | .next u => .next { u with report := t.report ++ u.report }

/-- The sound output is sampled after the batch (R250, R47). -/
def State.sampleSound (s : State) : State := { s with soundOn := s.st != 0 }

/-- `TICK` (R250): the decrement, then `STEPS_PER_TICK` steps, then the sound sample. -/
def tick (s : State) : Host.Outcome State Fault Refusal :=
  match batch s.stepsPerTick s.decrementTimers with
  | .fault r => .fault r
  | .refused r => .refused r
  | .next t => .next t.sampleSound

end Sys2Proof.Machine
end

