-- ==== Sys2Proof/Machine/Ports.lean ====
section
/-! DEFINITION. The block's ports (spec 10_state.md R39 to R49): the control commands with RESET and LOAD (70_reset_and_hazards.md R270, R273), the key input, the configuration input, the framebuffer output. The mnemonic port is Machine/Mnemonic.lean. -/

namespace Sys2Proof.Machine

/-- The memory after a reset: zeros, glyphs, then the program image at 0x200 (R270). -/
def imageMemory (c : Config) (image : List Byte) : Memory := Memory.writeBytes c [] progBase image

/-- `RESET` (R270): the whole Machine State, with `ROM_IMAGE` kept and its program written again (D15). It reports nothing
(R40; log 5) and samples no sound (log 6). -/
def resetCommand (s : State) : State :=
  { State.reset with
    mem := imageMemory s.config s.romImage
    romImage := s.romImage
    config := s.config
    soundOn := s.soundOn
    draws := s.draws
    diagSeen := s.diagSeen }

/-- `LOAD(bytes)` (R273): a program of more than 3584 bytes is rejected whole and changes nothing (R275). -/
def loadCommand (bytes : List Byte) (s : State) : State :=
  if maxProg < bytes.length then s.raise (.loadTooLarge bytes.length)
  else (resetCommand { s with romImage := bytes }).complete

/-- `SET_KEY(k, pressed)` (R45): ignored for k above 15 (D23). It reports nothing (R40; log 5). -/
def setKeyCommand (k : Nat) (pressed : Bool) (s : State) : State :=
  { s with report := [], key := if h : k < 16 then s.key.set k pressed h else s.key }

/-- The commands of the control port, exactly these (R39). -/
inductive Command
  | reset
  | step
  | tick
  | load (bytes : List Byte)
  | setKey (k : Nat) (pressed : Bool)
  deriving DecidableEq, Repr

/-- One command, atomic with respect to the others (R39, R111). -/
def command (c : Command) (s : State) : Host.Outcome State Fault Refusal :=
  match c with
  | .reset => .next (resetCommand s)
  | .step => step s
  | .tick => tick s
  | .load bytes => .next (loadCommand bytes s)
  | .setKey k pressed => .next (setKeyCommand k pressed s)

/-- The configuration input: the host sets `IPS` between ticks (R48). -/
def State.withIps (s : State) (ips : Nat) : State := { s with config := { s.config with ips := ips } }

/-- The framebuffer output: pixel (x, y) is element y * 64 + x (R46, R31). -/
def framebuffer (s : State) : List Bool := (s.disp.toList.map Vector.toList).flatten

/-- The numeric code of a status (R231; D5). -/
def Status.code : Status → Nat
  | .ok => 0
  | .diag (.unmappedOpcode _) => 1
  | .diag (.stackOverflow _) => 2
  | .diag (.stackUnderflow _) => 3
  | .diag (.addressFault _ _) => 4
  | .diag (.keyIndexFault _) => 5
  | .diag (.loadTooLarge _) => 6

end Sys2Proof.Machine
end

