-- ==== Sys2Proof/Safety.lean ====
section
/-! DEFINITION. What counts as a safe run, the invariant of the state (spec 10_state.md R38), and the terms in which statements say what an instruction leaves unchanged (40_engine.md R105). -/

namespace Sys2Proof.Machine

/-- No diagnostic was ever reported (D20: a diagnostic "refutes every claim"; log 3). A claim about what the hardware of the
repository does carries this for the last state of its run. -/
def State.Clean (s : State) : Prop := s.diagSeen = none

/-- What holds between commands (R38), beside what the types of the fields say (widths, SP in 0 to 12): memory keeps its
canonical form, the program image fits, and under `GLYPH_STORE_POLICY = fault` memory lists nothing in 0x000 to 0x1FF, so that
region reads as after reset. -/
structure State.Inv (s : State) : Prop where
  memory : Memory.wf s.config s.mem
  image : s.romImage.length ≤ maxProg
  glyphs : s.config.glyphStore = .fault → ∀ p ∈ s.mem, reservedTop < p.1

/-- The states the block can be in: power-up with any configuration (R36, log 1), then any commands and any settings of IPS
(R39, R48, R271). -/
inductive Reachable : State → Prop
  | powerUp (c : Config) : Reachable { State.reset with config := c }
  | command (c : Command) {s t : State} : Reachable s → command c s = .next t → Reachable t
  | ips (n : Nat) {s : State} : Reachable s → Reachable (s.withIps n)

/-! ### The sprite of a draw -/

/-- The sprite bit that falls on pixel (x, y) when rows are drawn with their top left corner at (ox, oy): bit 7 - c of row r for
column ox + c and row oy + r, none outside the 64 x 32 pixels (R191, R193). -/
def spriteBit (ox oy : Nat) (rows : List Byte) (x y : Nat) : Bool :=
  decide ((ox ≤ x ∧ x < ox + 8 ∧ x < 64) ∧ oy ≤ y ∧ y < oy + rows.length ∧ y < 32) &&
    (rows.getD (y - oy) 0).getLsbD (7 - (x - ox))

/-- Some set sprite bit falls on a pixel that is on. -/
def Hits (d : Display) (bit : Nat → Nat → Bool) : Prop := ∃ x y, bit x y = true ∧ Display.pixel d x y = true

/-! ### Frames: what `t` keeps of `s` -/

/-- The pieces of state beside the V registers and the status output. -/
inductive Part
  | index
  | pc
  | stack
  | delayTimer
  | soundTimer
  | display
  | memory
  | keys
  | romImage
  | config
  | soundOut
  | draws
  deriving DecidableEq, Repr

/-- `t` holds the same piece of state as `s`: all of SP and STACK, every pixel, every byte of memory, as a read of each gives it. -/
def Part.Same (s t : State) : Part → Prop
  | .index => t.index = s.index
  | .pc => t.pc = s.pc
  | .stack => t.sp = s.sp ∧ ∀ k (h : k < 12), t.stack[k] = s.stack[k]
  | .delayTimer => t.dt = s.dt
  | .soundTimer => t.st = s.st
  | .display => ∀ x y, Display.pixel t.disp x y = Display.pixel s.disp x y
  | .memory => ∀ a, t.byteAt a = s.byteAt a
  | .keys => ∀ k : Fin 16, t.key[k] = s.key[k]
  | .romImage => t.romImage = s.romImage
  | .config => t.config = s.config
  | .soundOut => t.soundOn = s.soundOn
  | .draws => t.draws = s.draws

/-- The frame: of all registers and pieces of state at most those listed differ. The status output is said beside it. -/
def WritesOnly (regs : List Reg) (parts : List Part) (s t : State) : Prop :=
  (∀ r, r ∉ regs → t.reg r = s.reg r) ∧ ∀ p, p ∉ parts → Part.Same s t p

/-- The status is OK and no diagnostic is recorded (R105; log 3). -/
def ReportsOk (s t : State) : Prop := t.report = [.ok] ∧ t.diagSeen = s.diagSeen

/-- An instruction that raises nothing: it writes at most what is listed, and the status is OK (R105). -/
def Completes (regs : List Reg) (parts : List Part) (s t : State) : Prop := WritesOnly regs parts s t ∧ ReportsOk s t

/-- A diagnostic: nothing is written, and the status output carries it (R107, R234). -/
def OnlyReports (d : Diagnostic) (s t : State) : Prop := WritesOnly [] [] s t ∧ t.report = [.diag d]

/-- The first diagnostic among statuses. -/
def firstDiagnostic (statuses : List Status) : Option Diagnostic :=
  statuses.findSome? fun st => match st with
    | .ok => none
    | .diag d => some d

/-- Every byte of memory outside the `size` bytes at `base` is unchanged. -/
def SameMemoryOutside (base size : Nat) (s t : State) : Prop :=
  ∀ a, ¬ (base ≤ a ∧ a < base + size) → t.byteAt a = s.byteAt a

/-- The word is the instruction's encoding, and it decodes to the instruction (R84). -/
def EncodesAs (w : Word) (i : Instr) : Prop := encode i = w ∧ decode w = .ok i

/-- The Machine State is as a reset with this program image leaves it (R37, R270). -/
structure AfterReset (image : List Byte) (t : State) : Prop where
  regs : ∀ r, t.reg r = 0
  index : t.index = 0
  pc : t.pc = 0x200
  stack : ∀ k (h : k < 12), t.stack[k] = 0
  sp : t.sp.val = 0
  timers : t.dt = 0 ∧ t.st = 0
  display : ∀ x y, Display.pixel t.disp x y = false
  keys : ∀ k : Fin 16, t.key[k] = false
  romImage : t.romImage = image
  memory : ∀ a, a < 4096 → t.byteAt a =
    if h : a < 80 then t.config.glyphs[a]
    else if 0x200 ≤ a ∧ a < 0x200 + image.length then image.getD (a - 0x200) 0
    else 0

end Sys2Proof.Machine
end

