-- ==== Sys2Proof/Certificates/Slice0/Obligations.lean ====
section
/-! DEFINITION. The statements for the provers, one `def Obligations.<Name> : Prop` each, listed in OBLIGATIONS.json. Each says in numbers, in the spec's words, what an instruction or the machine does, and with `Completes`, `OnlyReports` or `WritesOnly` what it leaves unchanged. A statement marked derived rests on a point the spec marks as its own decision (D<n>) or inference, or on a choice of the model (log <n>). -/

open Sys2Proof Sys2Proof.Machine

/-! ### Encoding -/

/-- Derived (30_encoding.md section 2): no bit of an encoding is dropped. -/
def Obligations.DecodeReadsEncodedInstruction : Prop :=
  ∀ i : Instr, i.wellFormed = true → decode (encode i) = .ok i

/-- Derived (30_encoding.md section 2): each mapped word has one reading, and it is well formed. -/
def Obligations.EncodeGivesDecodedWord : Prop :=
  ∀ (w : Word) (i : Instr), decode w = .ok i → encode i = w ∧ i.wellFormed = true

/-- R90: the rows are disjoint, a word that matches a row decodes to an instruction of that row, and the decoder yields unmapped
(row 35 of the table, 0NNN, is unmapped) exactly when no row matches. -/
def Obligations.DecodeFollowsOpcodeMap : Prop :=
  ∀ w : Word,
    (∀ r₁ ∈ opcodeMap, ∀ r₂ ∈ opcodeMap, w &&& r₁.mask = r₁.bits → w &&& r₂.mask = r₂.bits → r₁ = r₂) ∧
    (∀ r ∈ opcodeMap, w &&& r.mask = r.bits → ∃ i, decode w = .ok i ∧ i.opcodeRow = r) ∧
    ((decode w = .error (.unmapped w) ∨ ∃ nnn, decode w = .ok (.sysAddr nnn)) ↔ ∀ r ∈ opcodeMap, w &&& r.mask ≠ r.bits)

/-- Derived (30_encoding.md R84, the patterns): at least one written-out word of each of the sixteen families, the values of the
top four bits (R17, R83), and one word of no row. -/
def Obligations.SampleWordsDecode : Prop :=
  decode 0b0000000011100000 = .ok .cls ∧
  decode 0b0000000011101110 = .ok .ret ∧
  decode 0b0001101010111100 = .ok (.jpAddr 0xABC) ∧
  decode 0b0010001000001100 = .ok (.callAddr 0x20C) ∧
  decode 0b0011010100010001 = .ok (.seVxByte 5 0x11) ∧
  decode 0b0100111100000001 = .ok (.sneVxByte 15 0x01) ∧
  decode 0b0101000100100000 = .ok (.seVxVy 1 2) ∧
  decode 0b0110101011111111 = .ok (.ldVxByte 10 0xFF) ∧
  decode 0b0111000010000000 = .ok (.addVxByte 0 0x80) ∧
  decode 0b1000010101101110 = .ok (.shlVx 5 6) ∧
  decode 0b1001100001000000 = .ok (.sneVxVy 8 4) ∧
  decode 0b1010001000101010 = .ok (.ldIAddr 0x22A) ∧
  decode 0b1011111111111111 = .ok (.jpV0Addr 0xFFF) ∧
  decode 0b1100001100001111 = .ok (.rndVxByte 3 0x0F) ∧
  decode 0b1101000100101111 = .ok (.drwVxVyNibble 1 2 15) ∧
  decode 0b1110101010100001 = .ok (.sknpVx 10) ∧
  decode 0b1111001101010101 = .ok (.ldIndVx 3) ∧
  decode 0b0101000100100001 = .error (.unmapped 0x5121)

/-- Where a printed operand comes from: a field of the word (R80, R92), or literally. -/
inductive PrintedField
  | vx
  | vy
  | byte
  | addr
  | nibble
  | literal (o : Operand)

/-- The operand of a word at a place of its row's name. -/
def PrintedField.operand (w : Word) : PrintedField → Operand
  | .vx => .reg (fieldX w)
  | .vy => .reg (fieldY w)
  | .byte => .byte (fieldNN w)
  | .addr => .addr (fieldNNN w)
  | .nibble => .nibble (fieldN w)
  | .literal o => o

/-- A row of R84 with its name column: the name, and what its operands are. -/
structure PrintedRow where
  row : OpcodeRow
  name : String
  operands : List PrintedField

/-- The name column of R84, in its order. -/
def printedRows : List PrintedRow :=
  [⟨⟨0x00E0, 0xFFFF⟩, "CLS", []⟩, ⟨⟨0x00EE, 0xFFFF⟩, "RET", []⟩, ⟨⟨0x1000, 0xF000⟩, "JP", [.addr]⟩,
   ⟨⟨0x2000, 0xF000⟩, "CALL", [.addr]⟩, ⟨⟨0x3000, 0xF000⟩, "SE", [.vx, .byte]⟩, ⟨⟨0x4000, 0xF000⟩, "SNE", [.vx, .byte]⟩,
   ⟨⟨0x5000, 0xF00F⟩, "SE", [.vx, .vy]⟩, ⟨⟨0x6000, 0xF000⟩, "LD", [.vx, .byte]⟩, ⟨⟨0x7000, 0xF000⟩, "ADD", [.vx, .byte]⟩]
  ++ [⟨⟨0x8000, 0xF00F⟩, "LD", [.vx, .vy]⟩, ⟨⟨0x8001, 0xF00F⟩, "OR", [.vx, .vy]⟩, ⟨⟨0x8002, 0xF00F⟩, "AND", [.vx, .vy]⟩,
   ⟨⟨0x8003, 0xF00F⟩, "XOR", [.vx, .vy]⟩, ⟨⟨0x8004, 0xF00F⟩, "ADD", [.vx, .vy]⟩, ⟨⟨0x8005, 0xF00F⟩, "SUB", [.vx, .vy]⟩,
   ⟨⟨0x8006, 0xF00F⟩, "SHR", [.vx]⟩, ⟨⟨0x8007, 0xF00F⟩, "SUBN", [.vx, .vy]⟩, ⟨⟨0x800E, 0xF00F⟩, "SHL", [.vx]⟩,
   ⟨⟨0x9000, 0xF00F⟩, "SNE", [.vx, .vy]⟩]
  ++ [⟨⟨0xA000, 0xF000⟩, "LD", [.literal .i, .addr]⟩, ⟨⟨0xB000, 0xF000⟩, "JP", [.literal (.reg 0), .addr]⟩,
   ⟨⟨0xC000, 0xF000⟩, "RND", [.vx, .byte]⟩, ⟨⟨0xD000, 0xF000⟩, "DRW", [.vx, .vy, .nibble]⟩,
   ⟨⟨0xE09E, 0xF0FF⟩, "SKP", [.vx]⟩, ⟨⟨0xE0A1, 0xF0FF⟩, "SKNP", [.vx]⟩]
  ++ [⟨⟨0xF007, 0xF0FF⟩, "LD", [.vx, .literal .dt]⟩, ⟨⟨0xF00A, 0xF0FF⟩, "LD", [.vx, .literal .k]⟩,
   ⟨⟨0xF015, 0xF0FF⟩, "LD", [.literal .dt, .vx]⟩, ⟨⟨0xF018, 0xF0FF⟩, "LD", [.literal .st, .vx]⟩,
   ⟨⟨0xF01E, 0xF0FF⟩, "ADD", [.literal .i, .vx]⟩, ⟨⟨0xF029, 0xF0FF⟩, "LD", [.literal .f, .vx]⟩,
   ⟨⟨0xF033, 0xF0FF⟩, "LD", [.literal .b, .vx]⟩, ⟨⟨0xF055, 0xF0FF⟩, "LD", [.literal .indirect, .vx]⟩,
   ⟨⟨0xF065, 0xF0FF⟩, "LD", [.vx, .literal .indirect]⟩]

/-- Derived (R43, R92; the names and operand forms are D27): the mnemonic port follows the dispatch. The printed rows are those of
R84; a word that matches one dispatches to an instruction of that row and prints its name and operands; and the port prints
UNMAPPED with the raw word exactly for the words that match no row. -/
def Obligations.MnemonicAgreesWithDispatch : Prop :=
  printedRows.map PrintedRow.row = opcodeMap ∧
  ∀ w : Word,
    (∀ p ∈ printedRows, w &&& p.row.mask = p.row.bits →
      (∃ i, decode w = .ok i ∧ i.opcodeRow = p.row) ∧ mnemonic w = (p.name, p.operands.map (PrintedField.operand w))) ∧
    ((mnemonic w).1 = "UNMAPPED" ↔ ∀ r ∈ opcodeMap, w &&& r.mask ≠ r.bits) ∧
    ((mnemonic w).1 = "UNMAPPED" → (mnemonic w).2 = [.word w])

/-! ### The engine step -/

/-- Derived (40_engine.md section 1; the fetch checks are D6, D9): when PC may be fetched from and the two bytes there, read
big-endian, decode to an instruction, the step is that instruction on the state with PC advanced by 2, which does not wrap. -/
def Obligations.StepRunsDecodedInstruction : Prop :=
  ∀ (s : State) (w : Word) (i : Instr),
    s.pc.toNat + 1 < 4096 → (s.pc.toNat % 2 = 0 ∨ s.config.oddPc = .fetch) →
    w.toNat = 256 * (s.byteAt s.pc.toNat).toNat + (s.byteAt (s.pc.toNat + 1)).toNat → decode w = .ok i →
    step s = exec i { s with pc := s.pc + 2 } ∧ (s.pc + 2).toNat = s.pc.toNat + 2

/-- Derived (40_engine.md R101; the post-state is D6, D9): a fetch that fails changes nothing but the report, alignment before
range, with the lowest failing address. -/
def Obligations.FetchFaultChangesNothing : Prop :=
  ∀ s : State,
    (s.pc.toNat % 2 = 1 → s.config.oddPc = .fault →
      ∃ t, step s = .next t ∧ OnlyReports (.addressFault s.pc.toNat .fetch) s t) ∧
    (¬ (s.pc.toNat % 2 = 1 ∧ s.config.oddPc = .fault) → 4096 ≤ s.pc.toNat + 1 →
      ∃ t, step s = .next t ∧ OnlyReports (.addressFault (max s.pc.toNat 4096) .fetch) s t)

/-- R106: an unmapped word (0NNN among them) advances PC and reports itself, nothing else. -/
def Obligations.UnmappedWordOnlyAdvances : Prop :=
  ∀ (s : State) (w : Word), fetch s = .ok w →
    (decode w = .error (.unmapped w) ∨ ∃ nnn, decode w = .ok (.sysAddr nnn)) →
    ∃ t, step s = .next t ∧ OnlyReports (.unmappedOpcode w) { s with pc := s.pc + 2 } t

/-- Derived (40_engine.md R106, for row 35 of the table): the meaning of 0NNN is the report of its own word. -/
def Obligations.SysAddrReportsItsWord : Prop :=
  ∀ (nnn : Addr) (s : State), ∃ t, exec (.sysAddr nnn) s = .next t ∧ OnlyReports (.unmappedOpcode (0x0#4 ++ nnn)) s t

/-- R41: no step and no command halts the block. -/
def Obligations.NoDiagnosticHaltsTheBlock : Prop :=
  (∀ s : State, ∃ t, step s = .next t) ∧ ∀ (c : Command) (s : State), ∃ t, command c s = .next t

/-- Derived (60_exceptions.md R233; 10_state.md R40): a step reports one status. -/
def Obligations.StepReportsOneStatus : Prop :=
  ∀ s t : State, step s = .next t → t.report = [.ok] ∨ ∃ d, t.report = [.diag d]

/-- Derived (40_engine.md R107; the post-state is D9, the record log 3): an instruction that raises makes none of its writes. -/
def Obligations.RaisingInstructionWritesNothing : Prop :=
  ∀ (i : Instr) (s t : State) (d : Diagnostic), exec i s = .next t → t.report = [.diag d] →
    OnlyReports d s t ∧ t.diagSeen = some (s.diagSeen.getD d)

/-! ### Who writes what -/

/-- The V registers an instruction may write: its destination and, for the flag writers, VF (10_state.md R21, R22). -/
def mayWriteRegs : Instr → List Reg
  | .ldVxByte x _ | .addVxByte x _ | .ldVxVy x _ | .orVxVy x _ | .andVxVy x _ | .xorVxVy x _ | .rndVxByte x _
  | .ldVxDt x | .ldVxK x => [x]
  | .addVxVy x _ | .subVxVy x _ | .shrVx x _ | .subnVxVy x _ | .shlVx x _ => [x, 15]
  | .drwVxVyNibble _ _ _ => [15]
  | .ldVxInd x => (List.finRange 16).filter (· ≤ x)
  | .cls | .ret | .jpAddr _ | .callAddr _ | .seVxByte _ _ | .sneVxByte _ _ | .seVxVy _ _ | .sneVxVy _ _ | .ldIAddr _
  | .jpV0Addr _ | .skpVx _ | .sknpVx _ | .ldDtVx _ | .ldStVx _ | .addIVx _ | .ldFVx _ | .ldBVx _ | .ldIndVx _
  | .sysAddr _ => []

/-- Derived (10_state.md R21, R22; that 8XY1 to 8XY3 leave VF is D12): VF and every other register change only in the
instructions that name them or write the flag. -/
def Obligations.RegistersHaveTheirWriters : Prop :=
  ∀ (i : Instr) (s t : State), exec i s = .next t → ∀ r, r ∉ mayWriteRegs i → t.reg r = s.reg r

/-- The pieces of state beside the V registers an instruction may write (10_state.md R24, R27, R31; 20_memory.md R53;
60_exceptions.md R251; 40_engine.md R109, R110; `draws` is the model's own, log 2). -/
def mayWriteParts : Instr → List Part
  | .cls => [.display]
  | .ret | .callAddr _ => [.stack, .pc]
  | .jpAddr _ | .jpV0Addr _ | .seVxByte _ _ | .sneVxByte _ _ | .seVxVy _ _ | .sneVxVy _ _ | .skpVx _ | .sknpVx _ | .ldVxK _ => [.pc]
  | .ldIAddr _ | .addIVx _ | .ldFVx _ => [.index]
  | .rndVxByte _ _ => [.draws]
  | .drwVxVyNibble _ _ _ => [.display]
  | .ldDtVx _ => [.delayTimer]
  | .ldStVx _ => [.soundTimer]
  | .ldBVx _ | .ldIndVx _ => [.memory]
  | .ldVxByte _ _ | .addVxByte _ _ | .ldVxVy _ _ | .orVxVy _ _ | .andVxVy _ _ | .xorVxVy _ _ | .addVxVy _ _ | .subVxVy _ _
  | .shrVx _ _ | .subnVxVy _ _ | .shlVx _ _ | .ldVxDt _ | .ldVxInd _ | .sysAddr _ => []

/-- Derived (10_state.md R24, R27, R31, R42; 20_memory.md R53; 60_exceptions.md R251): each piece of state changes only in its
own instructions, and no instruction changes the keys, the program image, the configuration or the sound output. -/
def Obligations.EachPieceOfStateHasItsWriters : Prop :=
  ∀ (i : Instr) (s t : State), exec i s = .next t → ∀ p, p ∉ mayWriteParts i → Part.Same s t p

/-- Derived (10_state.md R30, R35; the image latch is D15): no instruction reads ST or the program image; with other values there,
every instruction does the same to everything else. FX18 writes ST, so there ST ends the same too. The two runs start at one draw
counter, so CXNN gets the same `RAND` in both: for it the statement holds for equal `RAND` bytes only (log 2). -/
def Obligations.SoundTimerAndImageAreReadByNoInstruction : Prop :=
  ∀ (i : Instr) (s t : State) (v : Byte) (image : List Byte), exec i s = .next t →
    exec i { s with st := v, romImage := image } =
      .next { t with st := (match i with | .ldStVx _ => t.st | _ => v), romImage := image }

/-- Derived (10_state.md R28; D26): a stack slot at SP or above is read by no instruction; with another value there, every
instruction does the same to everything but that slot. The two runs start at one draw counter, so CXNN gets the same `RAND` in
both: for it the statement holds for equal `RAND` bytes only (log 2). -/
def Obligations.StaleStackSlotsAreReadByNoInstruction : Prop :=
  ∀ (i : Instr) (s t : State) (k : Nat) (h : k < 12) (v : Word), s.sp.val ≤ k → exec i s = .next t →
    ∃ u, exec i { s with stack := s.stack.set k v h } = .next u ∧ WritesOnly [] [.stack] t u ∧
      u.sp = t.sp ∧ (∀ j (hj : j < 12), j ≠ k → u.stack[j] = t.stack[j]) ∧ u.report = t.report ∧ u.diagSeen = t.diagSeen

/-! ### Control flow -/

/-- R120. -/
def Obligations.RetPopsReturnAddress : Prop :=
  EncodesAs 0x00EE .ret ∧
  (∀ (s : State) (h : 0 < s.sp.val), ∃ t, exec .ret s = .next t ∧
    t.pc = s.stack[s.sp.val - 1]'(Nat.lt_of_lt_of_le (Nat.sub_lt h Nat.one_pos) (Nat.le_of_lt_succ s.sp.isLt)) ∧
    t.sp.val = s.sp.val - 1 ∧ (∀ k (hk : k < 12), t.stack[k] = s.stack[k]) ∧ Completes [] [.pc, .stack] s t) ∧
  (∀ s : State, s.sp.val = 0 → ∃ t, exec .ret s = .next t ∧ OnlyReports (.stackUnderflow (s.pc - 2)) s t)

/-- R122. -/
def Obligations.CallPushesReturnAddress : Prop :=
  ∀ nnn : Addr, EncodesAs (0x2#4 ++ nnn) (.callAddr nnn) ∧
  (∀ s : State, s.sp.val < 12 → ∃ t, exec (.callAddr nnn) s = .next t ∧
    t.pc.toNat = nnn.toNat ∧ t.sp.val = s.sp.val + 1 ∧
    (∀ k (hk : k < 12), t.stack[k] = if k = s.sp.val then s.pc else s.stack[k]) ∧ Completes [] [.pc, .stack] s t) ∧
  (∀ s : State, s.sp.val = 12 → ∃ t, exec (.callAddr nnn) s = .next t ∧ OnlyReports (.stackOverflow (s.pc - 2)) s t)

/-- Derived (R120, R122; 95_test_vectors.md L1-5): a CALL and the RET that follows come back to the instruction after the CALL. -/
def Obligations.CallThenRetReturns : Prop :=
  ∀ (nnn : Addr) (s : State), s.sp.val < 12 →
    ∃ t u, exec (.callAddr nnn) s = .next t ∧ exec .ret { t with pc := t.pc + 2 } = .next u ∧
      u.pc = s.pc ∧ u.sp = s.sp ∧ Completes [] [.stack] s u

/-- R121. -/
def Obligations.JumpWritesPc : Prop :=
  ∀ (nnn : Addr) (s : State), EncodesAs (0x1#4 ++ nnn) (.jpAddr nnn) ∧
    ∃ t, exec (.jpAddr nnn) s = .next t ∧ t.pc.toNat = nnn.toNat ∧ Completes [] [.pc] s t

/-- R127: the exact sum, at most 0x10FE. -/
def Obligations.IndexedJumpAddsV0 : Prop :=
  ∀ (nnn : Addr) (s : State), EncodesAs (0xB#4 ++ nnn) (.jpV0Addr nnn) ∧
    ∃ t, exec (.jpV0Addr nnn) s = .next t ∧ t.pc.toNat = nnn.toNat + (s.reg 0).toNat ∧ t.pc.toNat ≤ 0x10FE ∧
      Completes [] [.pc] s t

/-- R123, R124. -/
def Obligations.SkipsCompareWithImmediate : Prop :=
  ∀ (x : Reg) (nn : Byte) (s : State),
    EncodesAs (0x3#4 ++ regBits x ++ nn) (.seVxByte x nn) ∧ EncodesAs (0x4#4 ++ regBits x ++ nn) (.sneVxByte x nn) ∧
    (∃ t, exec (.seVxByte x nn) s = .next t ∧ t.pc = (if s.reg x = nn then s.pc + 2 else s.pc) ∧ Completes [] [.pc] s t) ∧
    (∃ t, exec (.sneVxByte x nn) s = .next t ∧ t.pc = (if s.reg x = nn then s.pc else s.pc + 2) ∧ Completes [] [.pc] s t)

/-- R125, R126. -/
def Obligations.SkipsCompareRegisters : Prop :=
  ∀ (x y : Reg) (s : State),
    EncodesAs (0x5#4 ++ regBits x ++ regBits y ++ 0x0#4) (.seVxVy x y) ∧
    EncodesAs (0x9#4 ++ regBits x ++ regBits y ++ 0x0#4) (.sneVxVy x y) ∧
    (∀ n : Nibble, n ≠ 0 →
      decode (0x5#4 ++ regBits x ++ regBits y ++ n) = .error (.unmapped (0x5#4 ++ regBits x ++ regBits y ++ n)) ∧
      decode (0x9#4 ++ regBits x ++ regBits y ++ n) = .error (.unmapped (0x9#4 ++ regBits x ++ regBits y ++ n))) ∧
    (∃ t, exec (.seVxVy x y) s = .next t ∧ t.pc = (if s.reg x = s.reg y then s.pc + 2 else s.pc) ∧ Completes [] [.pc] s t) ∧
    (∃ t, exec (.sneVxVy x y) s = .next t ∧ t.pc = (if s.reg x = s.reg y then s.pc else s.pc + 2) ∧ Completes [] [.pc] s t)

/-! ### Loads and arithmetic -/

/-- R140, R142. -/
def Obligations.LoadsWriteTheRegister : Prop :=
  (∀ (x : Reg) (nn : Byte) (s : State), EncodesAs (0x6#4 ++ regBits x ++ nn) (.ldVxByte x nn) ∧
    ∃ t, exec (.ldVxByte x nn) s = .next t ∧ t.reg x = nn ∧ Completes [x] [] s t) ∧
  (∀ (x y : Reg) (s : State), EncodesAs (0x8#4 ++ regBits x ++ regBits y ++ 0x0#4) (.ldVxVy x y) ∧
    ∃ t, exec (.ldVxVy x y) s = .next t ∧ t.reg x = s.reg y ∧ Completes [x] [] s t)

/-- R141: no flag; with X = 15 VF holds the sum. -/
def Obligations.AddImmediateWrapsWithoutFlag : Prop :=
  ∀ (x : Reg) (nn : Byte) (s : State), EncodesAs (0x7#4 ++ regBits x ++ nn) (.addVxByte x nn) ∧
    ∃ t, exec (.addVxByte x nn) s = .next t ∧ (t.reg x).toNat = ((s.reg x).toNat + nn.toNat) % 256 ∧ Completes [x] [] s t

/-- Derived (42_alu.md R143, R144, R145; that VF is not written is D12): the bits of the result, VF unchanged unless it is the
destination. -/
def Obligations.LogicWritesBitsAndNoFlag : Prop :=
  ∀ (x y : Reg) (s : State),
    (∃ t, exec (.orVxVy x y) s = .next t ∧
      (∀ k, (t.reg x).getLsbD k = ((s.reg x).getLsbD k || (s.reg y).getLsbD k)) ∧ Completes [x] [] s t) ∧
    (∃ t, exec (.andVxVy x y) s = .next t ∧
      (∀ k, (t.reg x).getLsbD k = ((s.reg x).getLsbD k && (s.reg y).getLsbD k)) ∧ Completes [x] [] s t) ∧
    (∃ t, exec (.xorVxVy x y) s = .next t ∧
      (∀ k, (t.reg x).getLsbD k = ((s.reg x).getLsbD k ^^ (s.reg y).getLsbD k)) ∧ Completes [x] [] s t)

/-- R146. -/
def Obligations.AddWritesSumAndCarry : Prop :=
  ∀ (x y : Reg) (s : State), EncodesAs (0x8#4 ++ regBits x ++ regBits y ++ 0x4#4) (.addVxVy x y) ∧
    ∃ t, exec (.addVxVy x y) s = .next t ∧
      (x ≠ 15 → (t.reg x).toNat = ((s.reg x).toNat + (s.reg y).toNat) % 256) ∧
      (t.reg 15).toNat = (if 256 ≤ (s.reg x).toNat + (s.reg y).toNat then 1 else 0) ∧ Completes [x, 15] [] s t

/-- R147, R149. -/
def Obligations.SubtractionsWriteDifferenceAndNoBorrow : Prop :=
  ∀ (x y : Reg) (s : State),
    EncodesAs (0x8#4 ++ regBits x ++ regBits y ++ 0x5#4) (.subVxVy x y) ∧
    EncodesAs (0x8#4 ++ regBits x ++ regBits y ++ 0x7#4) (.subnVxVy x y) ∧
    (∃ t, exec (.subVxVy x y) s = .next t ∧
      (x ≠ 15 → ((t.reg x).toNat : Int) = ((s.reg x).toNat - (s.reg y).toNat : Int) % 256) ∧
      (t.reg 15).toNat = (if (s.reg y).toNat ≤ (s.reg x).toNat then 1 else 0) ∧ Completes [x, 15] [] s t) ∧
    (∃ t, exec (.subnVxVy x y) s = .next t ∧
      (x ≠ 15 → ((t.reg x).toNat : Int) = ((s.reg y).toNat - (s.reg x).toNat : Int) % 256) ∧
      (t.reg 15).toNat = (if (s.reg x).toNat ≤ (s.reg y).toNat then 1 else 0) ∧ Completes [x, 15] [] s t)

/-- R148, R150: the source is VX, and Y may be anything. -/
def Obligations.ShiftsMoveVxAndItsEdgeBit : Prop :=
  ∀ (x y : Reg) (s : State),
    EncodesAs (0x8#4 ++ regBits x ++ regBits y ++ 0x6#4) (.shrVx x y) ∧
    EncodesAs (0x8#4 ++ regBits x ++ regBits y ++ 0xE#4) (.shlVx x y) ∧
    (∃ t, exec (.shrVx x y) s = .next t ∧
      (x ≠ 15 → (t.reg x).toNat = (s.reg x).toNat / 2) ∧
      (t.reg 15).toNat = (s.reg x).toNat % 2 ∧ Completes [x, 15] [] s t) ∧
    (∃ t, exec (.shlVx x y) s = .next t ∧
      (x ≠ 15 → (t.reg x).toNat = 2 * (s.reg x).toNat % 256) ∧
      (t.reg 15).toNat = (s.reg x).toNat / 128 ∧ Completes [x, 15] [] s t)

/-- Derived (42_alu.md R151; the free byte is D11, its form log 2): the free byte of the draw, masked, for whatever byte it is;
the next draw is another one. -/
def Obligations.RandomByteIsMasked : Prop :=
  ∀ (x : Reg) (nn : Byte) (s : State), ∃ t, exec (.rndVxByte x nn) s = .next t ∧
    (∀ k, (t.reg x).getLsbD k = ((Config.rand s.draws).getLsbD k && nn.getLsbD k)) ∧
    (t.reg x).toNat ≤ nn.toNat ∧ t.draws = s.draws + 1 ∧ Completes [x] [.draws] s t

/-! ### Index and memory -/

/-- R170, R172. -/
def Obligations.IndexLoadsWriteAddressAndGlyph : Prop :=
  (∀ (nnn : Addr) (s : State), EncodesAs (0xA#4 ++ nnn) (.ldIAddr nnn) ∧
    ∃ t, exec (.ldIAddr nnn) s = .next t ∧ t.index.toNat = nnn.toNat ∧ Completes [] [.index] s t) ∧
  (∀ (x : Reg) (s : State), EncodesAs (0xF#4 ++ regBits x ++ 0x29#8) (.ldFVx x) ∧
    ∃ t, exec (.ldFVx x) s = .next t ∧ t.index.toNat = (s.reg x).toNat * 5 ∧ Completes [] [.index] s t)

/-- Derived (43_index_memory.md R171; the wrap at 16 bits is D13). -/
def Obligations.AddToIndexWrapsAtSixteenBits : Prop :=
  ∀ (x : Reg) (s : State), ∃ t, exec (.addIVx x) s = .next t ∧
    t.index.toNat = (s.index.toNat + (s.reg x).toNat) % 65536 ∧ Completes [] [.index] s t

/-- Derived (43_index_memory.md R174; the checks are D7, D8): the three digits at I, I+1, I+2, every other byte as before. -/
def Obligations.DecimalStoreWritesThreeDigits : Prop :=
  ∀ (x : Reg) (s : State), s.Inv →
    s.index.toNat + 3 ≤ 4096 → (0x1FF < s.index.toNat ∨ s.config.glyphStore = .allow) →
    ∃ t, exec (.ldBVx x) s = .next t ∧
      (t.byteAt s.index.toNat).toNat = (s.reg x).toNat / 100 ∧
      (t.byteAt (s.index.toNat + 1)).toNat = (s.reg x).toNat / 10 % 10 ∧
      (t.byteAt (s.index.toNat + 2)).toNat = (s.reg x).toNat % 10 ∧
      SameMemoryOutside s.index.toNat 3 s t ∧ Completes [] [.memory] s t

/-- Derived (43_index_memory.md R175; the checks are D7, D8): V[k] at I + k for k up to X, every other byte as before. -/
def Obligations.RegisterStoreWritesV0ToVx : Prop :=
  ∀ (x : Reg) (s : State), s.Inv →
    s.index.toNat + x.val + 1 ≤ 4096 → (0x1FF < s.index.toNat ∨ s.config.glyphStore = .allow) →
    ∃ t, exec (.ldIndVx x) s = .next t ∧
      (∀ k : Reg, k ≤ x → t.byteAt (s.index.toNat + k.val) = s.reg k) ∧
      SameMemoryOutside s.index.toNat (x.val + 1) s t ∧ Completes [] [.memory] s t

/-- Derived (43_index_memory.md R174, R175; 20_memory.md R55, R56; the checks and their extent are D7, D8): a store that leaves
memory or, under `GLYPH_STORE_POLICY = fault`, starts in the glyph region raises with its lowest failing address, and stores
nothing. -/
def Obligations.BadStoresRaiseAndStoreNothing : Prop :=
  ∀ (x : Reg) (s : State),
    (4096 < s.index.toNat + 3 →
      ∃ t, exec (.ldBVx x) s = .next t ∧ OnlyReports (.addressFault (max s.index.toNat 4096) .write) s t) ∧
    (s.index.toNat ≤ 0x1FF → s.config.glyphStore = .fault →
      ∃ t, exec (.ldBVx x) s = .next t ∧ OnlyReports (.addressFault s.index.toNat .write) s t) ∧
    (4096 < s.index.toNat + x.val + 1 →
      ∃ t, exec (.ldIndVx x) s = .next t ∧ OnlyReports (.addressFault (max s.index.toNat 4096) .write) s t) ∧
    (s.index.toNat ≤ 0x1FF → s.config.glyphStore = .fault →
      ∃ t, exec (.ldIndVx x) s = .next t ∧ OnlyReports (.addressFault s.index.toNat .write) s t)

/-- Derived (43_index_memory.md R176; the check is D8): V[k] from I + k for k up to X, no other register; or, past the end of
memory, the diagnostic and no register. -/
def Obligations.RegisterLoadReadsV0ToVx : Prop :=
  ∀ (x : Reg) (s : State),
    (s.index.toNat + x.val + 1 ≤ 4096 →
      ∃ t, exec (.ldVxInd x) s = .next t ∧ (∀ k : Reg, k ≤ x → t.reg k = s.byteAt (s.index.toNat + k.val)) ∧
        Completes ((List.finRange 16).filter (· ≤ x)) [] s t) ∧
    (4096 < s.index.toNat + x.val + 1 →
      ∃ t, exec (.ldVxInd x) s = .next t ∧ OnlyReports (.addressFault (max s.index.toNat 4096) .read) s t)

/-- Derived (20_memory.md R64): a register store over the bytes at PC is what the next fetch reads. -/
def Obligations.StoreIsSeenByTheNextFetch : Prop :=
  ∀ (x a b : Reg) (s t : State), s.Inv → exec (.ldIndVx x) s = .next t → t.report = [.ok] →
    s.pc.toNat + 1 < 4096 → s.pc.toNat % 2 = 0 → s.pc.toNat = s.index.toNat + a.val → b.val = a.val + 1 → b ≤ x →
    ∃ w, fetch t = .ok w ∧ w.toNat = 256 * (s.reg a).toNat + (s.reg b).toNat

/-! ### Display -/

/-- R190. -/
def Obligations.ClearTurnsEveryPixelOff : Prop :=
  EncodesAs 0x00E0 .cls ∧
  ∀ s : State, ∃ t, exec .cls s = .next t ∧ (∀ x y, Display.pixel t.disp x y = false) ∧ Completes [] [.display] s t

/-- Derived (44_display.md R191, R192, R193; the check is D8, D21): every pixel is XORed with the sprite bit that falls on it,
the origin taken from VX and VY before the instruction; VF is 1 exactly when a set bit hit a pixel that was on. -/
def Obligations.DrawXorsSpriteAndFlagsCollision : Prop :=
  ∀ (x y : Reg) (n : Nibble) (s : State), (n = 0 ∨ s.index.toNat + n.toNat ≤ 4096) →
    ∃ t, exec (.drwVxVyNibble x y n) s = .next t ∧
      (∀ px py, Display.pixel t.disp px py =
        (Display.pixel s.disp px py ^^
          spriteBit ((s.reg x).toNat % 64) ((s.reg y).toNat % 32)
            ((List.range n.toNat).map fun k => s.byteAt (s.index.toNat + k)) px py)) ∧
      ((t.reg 15).toNat = 1 ∧ Hits s.disp (spriteBit ((s.reg x).toNat % 64) ((s.reg y).toNat % 32)
          ((List.range n.toNat).map fun k => s.byteAt (s.index.toNat + k))) ∨
       (t.reg 15).toNat = 0 ∧ ¬ Hits s.disp (spriteBit ((s.reg x).toNat % 64) ((s.reg y).toNat % 32)
          ((List.range n.toNat).map fun k => s.byteAt (s.index.toNat + k)))) ∧
      Completes [15] [.display] s t

/-- Derived (44_display.md R193): pixels are clipped, not wrapped. A draw changes no pixel outside the 8 columns and N rows from its origin on, so none
on the opposite edges, and VF is set only for a pixel of the display inside them that was on and is now off. -/
def Obligations.DrawClipsAndNeverWraps : Prop :=
  ∀ (x y : Reg) (n : Nibble) (s t : State), exec (.drwVxVyNibble x y n) s = .next t →
    (∀ px py, (px < (s.reg x).toNat % 64 ∨ (s.reg x).toNat % 64 + 8 ≤ px ∨ py < (s.reg y).toNat % 32 ∨
      (s.reg y).toNat % 32 + n.toNat ≤ py) → Display.pixel t.disp px py = Display.pixel s.disp px py) ∧
    (t.report = [.ok] → (t.reg 15).toNat ≠ 0 → ∃ px py,
      (s.reg x).toNat % 64 ≤ px ∧ px < (s.reg x).toNat % 64 + 8 ∧ px < 64 ∧
      (s.reg y).toNat % 32 ≤ py ∧ py < (s.reg y).toNat % 32 + n.toNat ∧ py < 32 ∧
      Display.pixel s.disp px py = true ∧ Display.pixel t.disp px py = false)

/-- Derived (44_display.md R191; the extent of the check is D8, D21): a sprite that reaches past memory raises before VF or any
pixel is written, clipped rows counted. -/
def Obligations.DrawPastMemoryRaises : Prop :=
  ∀ (x y : Reg) (n : Nibble) (s : State), n ≠ 0 → 4096 < s.index.toNat + n.toNat →
    ∃ t, exec (.drwVxVyNibble x y n) s = .next t ∧ OnlyReports (.addressFault (max s.index.toNat 4096) .read) s t

/-- Derived (44_display.md R194): a sprite of no rows cannot fault, clears VF and changes no pixel. -/
def Obligations.DrawOfNoRowsOnlyClearsVf : Prop :=
  ∀ (x y : Reg) (s : State), ∃ t, exec (.drwVxVyNibble x y 0) s = .next t ∧ (t.reg 15).toNat = 0 ∧ Completes [15] [] s t

/-- Derived (44_display.md R195, which 90_conflicts.md C7 restates): the same draw at the same origin twice restores the display,
and the second sets VF exactly when a visible set bit fell on a pixel that was off before the first. -/
def Obligations.DrawingTwiceRestoresTheDisplay : Prop :=
  ∀ (x y : Reg) (n : Nibble) (s t : State), exec (.drwVxVyNibble x y n) s = .next t → t.report = [.ok] →
    (t.reg x).toNat % 64 = (s.reg x).toNat % 64 → (t.reg y).toNat % 32 = (s.reg y).toNat % 32 →
    ∃ u, exec (.drwVxVyNibble x y n) t = .next u ∧
      (∀ px py, Display.pixel u.disp px py = Display.pixel s.disp px py) ∧
      ((u.reg 15).toNat = 1 ↔ ∃ px py,
        spriteBit ((s.reg x).toNat % 64) ((s.reg y).toNat % 32)
          ((List.range n.toNat).map fun k => s.byteAt (s.index.toNat + k)) px py = true ∧
        Display.pixel s.disp px py = false)

/-! ### Keypad and timers -/

/-- Derived (45_keypad_timer.md R210, R211; VX above 15 is D14). -/
def Obligations.KeySkipsReadTheLatch : Prop :=
  ∀ (x : Reg) (s : State),
    (∀ k : Fin 16, (s.reg x).toNat = k.val →
      (∃ t, exec (.skpVx x) s = .next t ∧ t.pc = (if s.key[k] = true then s.pc + 2 else s.pc) ∧ Completes [] [.pc] s t) ∧
      (∃ t, exec (.sknpVx x) s = .next t ∧ t.pc = (if s.key[k] = true then s.pc else s.pc + 2) ∧ Completes [] [.pc] s t)) ∧
    (15 < (s.reg x).toNat →
      (∃ t, exec (.skpVx x) s = .next t ∧ OnlyReports (.keyIndexFault (s.reg x)) s t) ∧
      (∃ t, exec (.sknpVx x) s = .next t ∧ OnlyReports (.keyIndexFault (s.reg x)) s t))

/-- Derived (45_keypad_timer.md R213; the rewind is D25): the lowest pressed key, or PC back by 2. -/
def Obligations.KeyWaitTakesLowestKeyOrRewinds : Prop :=
  ∀ (x : Reg) (s : State),
    (∀ k : Fin 16, s.key[k] = true → (∀ j : Fin 16, j < k → s.key[j] = false) →
      ∃ t, exec (.ldVxK x) s = .next t ∧ (t.reg x).toNat = k.val ∧ Completes [x] [] s t) ∧
    ((∀ j : Fin 16, s.key[j] = false) →
      ∃ t, exec (.ldVxK x) s = .next t ∧ t.pc = s.pc - 2 ∧ Completes [] [.pc] s t)

/-- Derived (45_keypad_timer.md R213; 95_test_vectors.md L1-7b): with no key pressed a step of FX0A leaves the whole machine as it
was, PC too, so the next step runs it again. -/
def Obligations.KeyWaitStepStaysInPlace : Prop :=
  ∀ (s : State) (w : Word) (x : Reg), fetch s = .ok w → decode w = .ok (.ldVxK x) → (∀ j : Fin 16, s.key[j] = false) →
    ∃ t, step s = .next t ∧ Completes [] [] s t

/-- Derived (45_keypad_timer.md R212, R214, R215). -/
def Obligations.TimerTransfersCopyTheByte : Prop :=
  ∀ (x : Reg) (s : State),
    EncodesAs (0xF#4 ++ regBits x ++ 0x07#8) (.ldVxDt x) ∧ EncodesAs (0xF#4 ++ regBits x ++ 0x15#8) (.ldDtVx x) ∧
    EncodesAs (0xF#4 ++ regBits x ++ 0x18#8) (.ldStVx x) ∧
    (∃ t, exec (.ldVxDt x) s = .next t ∧ t.reg x = s.dt ∧ Completes [x] [] s t) ∧
    (∃ t, exec (.ldDtVx x) s = .next t ∧ t.dt = s.reg x ∧ Completes [] [.delayTimer] s t) ∧
    (∃ t, exec (.ldStVx x) s = .next t ∧ t.st = s.reg x ∧ Completes [] [.soundTimer] s t)

/-! ### Commands -/

/-- Derived (60_exceptions.md R250, R253, R236; the sample is D24, the running batch D17): a tick is one decrement of each nonzero
timer, exactly `IPS div 60` engine steps, whatever they report, and one sound sample; it reports the status of each step, in order. -/
def Obligations.TickDecrementsThenRunsTheBatch : Prop :=
  ∀ s s₀ : State,
    s₀ = { s with dt := if s.dt = 0 then 0 else s.dt - 1, st := if s.st = 0 then 0 else s.st - 1 } →
    ∃ t u, tick s = .next t ∧ Sys2Proof.core.run (s.config.ips / 60) s₀ = .next u ∧
      t = { u with report := t.report, soundOn := decide (u.st ≠ 0) } ∧ t.report.length = s.config.ips / 60 ∧
      ∀ k, k < s.config.ips / 60 → ∃ v, Sys2Proof.core.run (k + 1) s₀ = .next v ∧ v.report = t.report[k]?.toList

/-- Derived (70_reset_and_hazards.md R270; the reload is D15, the slots and latches D26, D28): RESET brings the whole Machine
State to its reset values with the program written again, and keeps the program image and the configuration. -/
def Obligations.ResetRestoresEveryPieceOfState : Prop :=
  ∀ s : State, s.romImage.length ≤ 3584 →
    ∃ t, command .reset s = .next t ∧ AfterReset s.romImage t ∧ t.config = s.config ∧ t.report = []

/-- Derived (70_reset_and_hazards.md R271; that power-up is a reset with an empty image is D15). -/
def Obligations.PowerUpIsResetWithoutProgram : Prop :=
  AfterReset [] State.reset ∧ command .reset State.reset = .next State.reset

/-- Derived (70_reset_and_hazards.md R270, R273, R275; the image latch and reload are D15, the empty load D22, the stack slots D26,
the released keys D28): a program of at most 3584 bytes, none too, is written at 0x200 over a reset machine; a longer one is
rejected whole. -/
def Obligations.LoadWritesProgramOrRejectsWhole : Prop :=
  ∀ (bytes : List Byte) (s : State),
    (bytes.length ≤ 3584 → ∃ t, command (.load bytes) s = .next t ∧ AfterReset bytes t ∧ t.config = s.config ∧ t.report = [.ok]) ∧
    (3584 < bytes.length → ∃ t, command (.load bytes) s = .next t ∧ OnlyReports (.loadTooLarge bytes.length) s t)

/-- Derived (10_state.md R45; a key above 15 is D23): SET_KEY writes the one latch it names and nothing else. -/
def Obligations.SetKeyWritesOneLatch : Prop :=
  ∀ (k : Nat) (pressed : Bool) (s : State), ∃ t, command (.setKey k pressed) s = .next t ∧
    (∀ j : Fin 16, t.key[j] = if j.val = k then pressed else s.key[j]) ∧ WritesOnly [] [.keys] s t ∧
    t.report = [] ∧ t.diagSeen = s.diagSeen

/-! ### Invariants -/

/-- Derived (10_state.md R38): the memory's canonical form (log 9), the program image's bound and the glyph region's protection
are kept by every step. -/
def Obligations.StepKeepsInvariant : Prop := ∀ s t : State, s.Inv → step s = .next t → t.Inv

/-- Derived (10_state.md R38): the power-up state meets the invariant. -/
def Obligations.ResetMeetsInvariant : Prop := State.reset.Inv

/-- Derived (10_state.md R38, R39; the memory's form is log 9): the invariant holds in every state that commands and settings of
IPS lead to from power-up. `CommandsKeepInvariant` is its step lemma. -/
def Obligations.ReachableStatesMeetInvariant : Prop := ∀ s : State, Reachable s → s.Inv

/-- Derived (10_state.md R38; 20_memory.md R56, R66; the policy is D7): under `GLYPH_STORE_POLICY = fault` the glyph region reads as after
reset in every reachable state. -/
def Obligations.GlyphRegionIsNeverOverwritten : Prop :=
  ∀ s : State, Reachable s → s.config.glyphStore = .fault → ∀ a, a ≤ 0x1FF →
    s.byteAt a = if h : a < 80 then s.config.glyphs[a] else 0

/-- Derived (10_state.md R36; log 1): no command changes the configuration. -/
def Obligations.ConfigurationIsConstant : Prop :=
  ∀ (c : Command) (s t : State), command c s = .next t → t.config = s.config

/-- Derived (92_eei_decisions.md D20; the record is the model's, log 3): after any command the record holds the first diagnostic
ever reported, so nothing clears it. -/
def Obligations.RecordHoldsTheFirstDiagnostic : Prop :=
  ∀ (c : Command) (s t : State), command c s = .next t →
    t.diagSeen = (match s.diagSeen with
      | some d => some d
      | none => firstDiagnostic t.report)

/-- Derived (20_memory.md R50, R61; the form of memory is log 9): in two states of one configuration whose memories are in canonical form, equal
reads at every address mean equal memories. -/
def Obligations.EqualReadsMeanEqualMemories : Prop :=
  ∀ s t : State, s.Inv → t.Inv → t.config = s.config → (∀ a, a < 4096 → t.byteAt a = s.byteAt a) → t.mem = s.mem

/-- Derived (10_state.md R38, R39, R48; the memory's form is log 9): from every state that meets it, the invariant is kept by every
command of the control port, TICK with its whole batch and LOAD of any bytes among them, and by every setting of IPS. -/
def Obligations.CommandsKeepInvariant : Prop :=
  (∀ (c : Command) (s t : State), s.Inv → command c s = .next t → t.Inv) ∧ ∀ (n : Nat) (s : State), s.Inv → (s.withIps n).Inv
end

