-- ==== Sys2Proof/Laws/Decode.lean ====
section
/-! SUPPORT. The fields of a word as numbers, the fields of each shape of encoded word, and each mask of the opcode map as fields (spec 30_encoding.md R80, R84). -/

namespace Sys2Proof

theorem append_toNat {v w : Nat} (a : BitVec v) (b : BitVec w) : (a ++ b).toNat = a.toNat * 2 ^ w + b.toNat := by
  rw [BitVec.toNat_append, ← Nat.shiftLeft_add_eq_or_of_lt b.isLt, Nat.shiftLeft_eq]

theorem fieldF_toNat (w : Word) : (fieldF w).toNat = w.toNat / 4096 := by
  have := w.isLt
  simp only [fieldF, BitVec.extractLsb'_toNat, Nat.shiftRight_eq_div_pow]
  omega

theorem fieldX_val (w : Word) : (fieldX w).val = w.toNat / 256 % 16 := by
  show (w.extractLsb' 8 4).toNat = _
  simp only [BitVec.extractLsb'_toNat, Nat.shiftRight_eq_div_pow]

theorem fieldY_val (w : Word) : (fieldY w).val = w.toNat / 16 % 16 := by
  show (w.extractLsb' 4 4).toNat = _
  simp only [BitVec.extractLsb'_toNat, Nat.shiftRight_eq_div_pow]

theorem fieldN_toNat (w : Word) : (fieldN w).toNat = w.toNat % 16 := by
  simp [fieldN, BitVec.extractLsb'_toNat]

theorem fieldNN_toNat (w : Word) : (fieldNN w).toNat = w.toNat % 256 := by
  simp [fieldNN, BitVec.extractLsb'_toNat]

theorem fieldNNN_toNat (w : Word) : (fieldNNN w).toNat = w.toNat % 4096 := by
  simp [fieldNNN, BitVec.extractLsb'_toNat]

theorem regBits_toNat (x : Reg) : (regBits x).toNat = x.val := rfl

/-- The fields of a word of the pattern FNNN. -/
theorem fields_FNNN (f : BitVec 4) (nnn : Addr) : fieldF (f ++ nnn) = f ∧ fieldNNN (f ++ nnn) = nnn := by
  have := f.isLt
  have := nnn.isLt
  constructor <;> apply BitVec.eq_of_toNat_eq <;> simp only [fieldF_toNat, fieldNNN_toNat, append_toNat] <;> omega

/-- The fields of a word of the pattern FXNN. -/
theorem fields_FXNN (f : BitVec 4) (x : Reg) (nn : Byte) :
    fieldF (f ++ regBits x ++ nn) = f ∧ fieldX (f ++ regBits x ++ nn) = x ∧ fieldNN (f ++ regBits x ++ nn) = nn := by
  have := f.isLt
  have := x.isLt
  have := nn.isLt
  refine ⟨BitVec.eq_of_toNat_eq ?_, Fin.ext ?_, BitVec.eq_of_toNat_eq ?_⟩ <;>
    simp only [fieldF_toNat, fieldX_val, fieldNN_toNat, append_toNat, regBits_toNat] <;> omega

/-- The fields of a word of the pattern FXYN. -/
theorem fields_FXYN (f : BitVec 4) (x y : Reg) (n : Nibble) :
    fieldF (f ++ regBits x ++ regBits y ++ n) = f ∧ fieldX (f ++ regBits x ++ regBits y ++ n) = x ∧
      fieldY (f ++ regBits x ++ regBits y ++ n) = y ∧ fieldN (f ++ regBits x ++ regBits y ++ n) = n := by
  have := f.isLt
  have := x.isLt
  have := y.isLt
  have := n.isLt
  refine ⟨BitVec.eq_of_toNat_eq ?_, Fin.ext ?_, Fin.ext ?_, BitVec.eq_of_toNat_eq ?_⟩ <;>
    simp only [fieldF_toNat, fieldX_val, fieldY_val, fieldN_toNat, append_toNat, regBits_toNat] <;> omega

/-! ### A word is put together again from its fields -/

theorem word_FNNN (w : Word) : fieldF w ++ fieldNNN w = w := by
  have := w.isLt
  apply BitVec.eq_of_toNat_eq
  simp only [append_toNat, fieldF_toNat, fieldNNN_toNat]
  omega

theorem word_FXNN (w : Word) : fieldF w ++ regBits (fieldX w) ++ fieldNN w = w := by
  have := w.isLt
  apply BitVec.eq_of_toNat_eq
  simp only [append_toNat, fieldF_toNat, regBits_toNat, fieldX_val, fieldNN_toNat]
  omega

theorem word_FXYN (w : Word) : fieldF w ++ regBits (fieldX w) ++ regBits (fieldY w) ++ fieldN w = w := by
  have := w.isLt
  apply BitVec.eq_of_toNat_eq
  simp only [append_toNat, fieldF_toNat, regBits_toNat, fieldX_val, fieldY_val, fieldN_toNat]
  omega

/-- The sixteenth family is the one left (R83). -/
theorem family_F {f : BitVec 4} (h : f ≠ 0x0#4 ∧ f ≠ 0x1#4 ∧ f ≠ 0x2#4 ∧ f ≠ 0x3#4 ∧ f ≠ 0x4#4 ∧ f ≠ 0x5#4 ∧ f ≠ 0x6#4 ∧
    f ≠ 0x7#4 ∧ f ≠ 0x8#4 ∧ f ≠ 0x9#4 ∧ f ≠ 0xA#4 ∧ f ≠ 0xB#4 ∧ f ≠ 0xC#4 ∧ f ≠ 0xD#4 ∧ f ≠ 0xE#4) : f = 0xF#4 := by
  revert f
  decide

/-! ### The masks of the opcode map -/

/-- The mask 0xF000 keeps F. -/
theorem mask_F000 (w : Word) : w &&& 0xF000#16 = fieldF w ++ 0#12 := by
  refine BitVec.eq_of_getLsbD_eq fun i hi => ?_
  simp only [fieldF, BitVec.getLsbD_and, BitVec.getLsbD_append, BitVec.getLsbD_extractLsb']
  interval_cases i <;> simp

/-- The mask 0xF00F keeps F and N. -/
theorem mask_F00F (w : Word) : w &&& 0xF00F#16 = fieldF w ++ 0#8 ++ fieldN w := by
  refine BitVec.eq_of_getLsbD_eq fun i hi => ?_
  simp only [fieldF, fieldN, BitVec.getLsbD_and, BitVec.getLsbD_append, BitVec.getLsbD_extractLsb']
  interval_cases i <;> simp

/-- The mask 0xF0FF keeps F and NN. -/
theorem mask_F0FF (w : Word) : w &&& 0xF0FF#16 = fieldF w ++ 0#4 ++ fieldNN w := by
  refine BitVec.eq_of_getLsbD_eq fun i hi => ?_
  simp only [fieldF, fieldNN, BitVec.getLsbD_and, BitVec.getLsbD_append, BitVec.getLsbD_extractLsb']
  interval_cases i <;> simp

/-! ### The test of the opcode map on each shape of encoded word -/

theorem row_FNNN (f : BitVec 4) (nnn : Addr) : (f ++ nnn) &&& 0xF000#16 = f ++ 0#12 := by
  rw [mask_F000, (fields_FNNN f nnn).1]

theorem row_FXNN (f : BitVec 4) (x : Reg) (nn : Byte) : (f ++ regBits x ++ nn) &&& 0xF000#16 = f ++ 0#12 := by
  rw [mask_F000, (fields_FXNN f x nn).1]

theorem row_FXYN (f : BitVec 4) (x y : Reg) (n : Nibble) :
    (f ++ regBits x ++ regBits y ++ n) &&& 0xF00F#16 = f ++ 0#8 ++ n := by
  rw [mask_F00F, (fields_FXYN f x y n).1, (fields_FXYN f x y n).2.2.2]

theorem row_FX (f : BitVec 4) (x : Reg) (nn : Byte) : (f ++ regBits x ++ nn) &&& 0xF0FF#16 = f ++ 0#4 ++ nn := by
  rw [mask_F0FF, (fields_FXNN f x nn).1, (fields_FXNN f x nn).2.2]

/-- The bytes of a word give the word back (R58). -/
theorem wordOfBytes_bytes (w : Word) : wordOfBytes (w.extractLsb' 8 8) (w.extractLsb' 0 8) = w := by
  have := w.isLt
  apply BitVec.eq_of_toNat_eq
  simp only [wordOfBytes, append_toNat, BitVec.extractLsb'_toNat, Nat.shiftRight_eq_div_pow]
  omega

end Sys2Proof
end

