-- ==== Sys2Proof/Laws/State.lean ====
section
/-! SUPPORT. One lemma per field per update of State, and the register file's read-after-write. -/

namespace Sys2Proof.Machine

variable (s : State)

/-! ### setReg -/

@[simp] theorem State.setReg_v (x : Reg) (b : Byte) : (s.setReg x b).v = s.v.set x b := rfl
@[simp] theorem State.setReg_index (x : Reg) (b : Byte) : (s.setReg x b).index = s.index := rfl
@[simp] theorem State.setReg_pc (x : Reg) (b : Byte) : (s.setReg x b).pc = s.pc := rfl
@[simp] theorem State.setReg_stack (x : Reg) (b : Byte) : (s.setReg x b).stack = s.stack := rfl
@[simp] theorem State.setReg_sp (x : Reg) (b : Byte) : (s.setReg x b).sp = s.sp := rfl
@[simp] theorem State.setReg_dt (x : Reg) (b : Byte) : (s.setReg x b).dt = s.dt := rfl
@[simp] theorem State.setReg_st (x : Reg) (b : Byte) : (s.setReg x b).st = s.st := rfl
@[simp] theorem State.setReg_disp (x : Reg) (b : Byte) : (s.setReg x b).disp = s.disp := rfl
@[simp] theorem State.setReg_key (x : Reg) (b : Byte) : (s.setReg x b).key = s.key := rfl
@[simp] theorem State.setReg_mem (x : Reg) (b : Byte) : (s.setReg x b).mem = s.mem := rfl
@[simp] theorem State.setReg_romImage (x : Reg) (b : Byte) : (s.setReg x b).romImage = s.romImage := rfl
@[simp] theorem State.setReg_config (x : Reg) (b : Byte) : (s.setReg x b).config = s.config := rfl
@[simp] theorem State.setReg_report (x : Reg) (b : Byte) : (s.setReg x b).report = s.report := rfl
@[simp] theorem State.setReg_soundOn (x : Reg) (b : Byte) : (s.setReg x b).soundOn = s.soundOn := rfl
@[simp] theorem State.setReg_draws (x : Reg) (b : Byte) : (s.setReg x b).draws = s.draws := rfl
@[simp] theorem State.setReg_diagSeen (x : Reg) (b : Byte) : (s.setReg x b).diagSeen = s.diagSeen := rfl

/-! ### advance -/

@[simp] theorem State.advance_v : (s.advance).v = s.v := rfl
@[simp] theorem State.advance_index : (s.advance).index = s.index := rfl
@[simp] theorem State.advance_pc : (s.advance).pc = s.pc + 2 := rfl
@[simp] theorem State.advance_stack : (s.advance).stack = s.stack := rfl
@[simp] theorem State.advance_sp : (s.advance).sp = s.sp := rfl
@[simp] theorem State.advance_dt : (s.advance).dt = s.dt := rfl
@[simp] theorem State.advance_st : (s.advance).st = s.st := rfl
@[simp] theorem State.advance_disp : (s.advance).disp = s.disp := rfl
@[simp] theorem State.advance_key : (s.advance).key = s.key := rfl
@[simp] theorem State.advance_mem : (s.advance).mem = s.mem := rfl
@[simp] theorem State.advance_romImage : (s.advance).romImage = s.romImage := rfl
@[simp] theorem State.advance_config : (s.advance).config = s.config := rfl
@[simp] theorem State.advance_report : (s.advance).report = s.report := rfl
@[simp] theorem State.advance_soundOn : (s.advance).soundOn = s.soundOn := rfl
@[simp] theorem State.advance_draws : (s.advance).draws = s.draws := rfl
@[simp] theorem State.advance_diagSeen : (s.advance).diagSeen = s.diagSeen := rfl

/-! ### complete -/

@[simp] theorem State.complete_v : (s.complete).v = s.v := rfl
@[simp] theorem State.complete_index : (s.complete).index = s.index := rfl
@[simp] theorem State.complete_pc : (s.complete).pc = s.pc := rfl
@[simp] theorem State.complete_stack : (s.complete).stack = s.stack := rfl
@[simp] theorem State.complete_sp : (s.complete).sp = s.sp := rfl
@[simp] theorem State.complete_dt : (s.complete).dt = s.dt := rfl
@[simp] theorem State.complete_st : (s.complete).st = s.st := rfl
@[simp] theorem State.complete_disp : (s.complete).disp = s.disp := rfl
@[simp] theorem State.complete_key : (s.complete).key = s.key := rfl
@[simp] theorem State.complete_mem : (s.complete).mem = s.mem := rfl
@[simp] theorem State.complete_romImage : (s.complete).romImage = s.romImage := rfl
@[simp] theorem State.complete_config : (s.complete).config = s.config := rfl
@[simp] theorem State.complete_report : (s.complete).report = [.ok] := rfl
@[simp] theorem State.complete_soundOn : (s.complete).soundOn = s.soundOn := rfl
@[simp] theorem State.complete_draws : (s.complete).draws = s.draws := rfl
@[simp] theorem State.complete_diagSeen : (s.complete).diagSeen = s.diagSeen := rfl

/-! ### raise -/

@[simp] theorem State.raise_v (d : Diagnostic) : (s.raise d).v = s.v := rfl
@[simp] theorem State.raise_index (d : Diagnostic) : (s.raise d).index = s.index := rfl
@[simp] theorem State.raise_pc (d : Diagnostic) : (s.raise d).pc = s.pc := rfl
@[simp] theorem State.raise_stack (d : Diagnostic) : (s.raise d).stack = s.stack := rfl
@[simp] theorem State.raise_sp (d : Diagnostic) : (s.raise d).sp = s.sp := rfl
@[simp] theorem State.raise_dt (d : Diagnostic) : (s.raise d).dt = s.dt := rfl
@[simp] theorem State.raise_st (d : Diagnostic) : (s.raise d).st = s.st := rfl
@[simp] theorem State.raise_disp (d : Diagnostic) : (s.raise d).disp = s.disp := rfl
@[simp] theorem State.raise_key (d : Diagnostic) : (s.raise d).key = s.key := rfl
@[simp] theorem State.raise_mem (d : Diagnostic) : (s.raise d).mem = s.mem := rfl
@[simp] theorem State.raise_romImage (d : Diagnostic) : (s.raise d).romImage = s.romImage := rfl
@[simp] theorem State.raise_config (d : Diagnostic) : (s.raise d).config = s.config := rfl
@[simp] theorem State.raise_report (d : Diagnostic) : (s.raise d).report = [.diag d] := rfl
@[simp] theorem State.raise_soundOn (d : Diagnostic) : (s.raise d).soundOn = s.soundOn := rfl
@[simp] theorem State.raise_draws (d : Diagnostic) : (s.raise d).draws = s.draws := rfl

/-! ### decrementTimers -/

@[simp] theorem State.decrementTimers_v : (s.decrementTimers).v = s.v := rfl
@[simp] theorem State.decrementTimers_index : (s.decrementTimers).index = s.index := rfl
@[simp] theorem State.decrementTimers_pc : (s.decrementTimers).pc = s.pc := rfl
@[simp] theorem State.decrementTimers_stack : (s.decrementTimers).stack = s.stack := rfl
@[simp] theorem State.decrementTimers_sp : (s.decrementTimers).sp = s.sp := rfl
@[simp] theorem State.decrementTimers_dt : (s.decrementTimers).dt = countDown s.dt := rfl
@[simp] theorem State.decrementTimers_st : (s.decrementTimers).st = countDown s.st := rfl
@[simp] theorem State.decrementTimers_disp : (s.decrementTimers).disp = s.disp := rfl
@[simp] theorem State.decrementTimers_key : (s.decrementTimers).key = s.key := rfl
@[simp] theorem State.decrementTimers_mem : (s.decrementTimers).mem = s.mem := rfl
@[simp] theorem State.decrementTimers_romImage : (s.decrementTimers).romImage = s.romImage := rfl
@[simp] theorem State.decrementTimers_config : (s.decrementTimers).config = s.config := rfl
@[simp] theorem State.decrementTimers_report : (s.decrementTimers).report = s.report := rfl
@[simp] theorem State.decrementTimers_soundOn : (s.decrementTimers).soundOn = s.soundOn := rfl
@[simp] theorem State.decrementTimers_draws : (s.decrementTimers).draws = s.draws := rfl
@[simp] theorem State.decrementTimers_diagSeen : (s.decrementTimers).diagSeen = s.diagSeen := rfl

/-! ### sampleSound -/

@[simp] theorem State.sampleSound_v : (s.sampleSound).v = s.v := rfl
@[simp] theorem State.sampleSound_index : (s.sampleSound).index = s.index := rfl
@[simp] theorem State.sampleSound_pc : (s.sampleSound).pc = s.pc := rfl
@[simp] theorem State.sampleSound_stack : (s.sampleSound).stack = s.stack := rfl
@[simp] theorem State.sampleSound_sp : (s.sampleSound).sp = s.sp := rfl
@[simp] theorem State.sampleSound_dt : (s.sampleSound).dt = s.dt := rfl
@[simp] theorem State.sampleSound_st : (s.sampleSound).st = s.st := rfl
@[simp] theorem State.sampleSound_disp : (s.sampleSound).disp = s.disp := rfl
@[simp] theorem State.sampleSound_key : (s.sampleSound).key = s.key := rfl
@[simp] theorem State.sampleSound_mem : (s.sampleSound).mem = s.mem := rfl
@[simp] theorem State.sampleSound_romImage : (s.sampleSound).romImage = s.romImage := rfl
@[simp] theorem State.sampleSound_config : (s.sampleSound).config = s.config := rfl
@[simp] theorem State.sampleSound_report : (s.sampleSound).report = s.report := rfl
@[simp] theorem State.sampleSound_soundOn : (s.sampleSound).soundOn = (s.st != 0) := rfl
@[simp] theorem State.sampleSound_draws : (s.sampleSound).draws = s.draws := rfl
@[simp] theorem State.sampleSound_diagSeen : (s.sampleSound).diagSeen = s.diagSeen := rfl

@[simp] theorem State.raise_diagSeen (d : Diagnostic) : (s.raise d).diagSeen = some (s.diagSeen.getD d) := by
  cases h : s.diagSeen <;> simp [State.raise, h]

/-! ### skipIf -/

@[simp] theorem State.skipIf_v (b : Bool) : (s.skipIf b).v = s.v := by cases b <;> rfl
@[simp] theorem State.skipIf_index (b : Bool) : (s.skipIf b).index = s.index := by cases b <;> rfl
theorem State.skipIf_pc (b : Bool) : (s.skipIf b).pc = if b then s.pc + 2 else s.pc := by cases b <;> rfl
@[simp] theorem State.skipIf_stack (b : Bool) : (s.skipIf b).stack = s.stack := by cases b <;> rfl
@[simp] theorem State.skipIf_sp (b : Bool) : (s.skipIf b).sp = s.sp := by cases b <;> rfl
@[simp] theorem State.skipIf_dt (b : Bool) : (s.skipIf b).dt = s.dt := by cases b <;> rfl
@[simp] theorem State.skipIf_st (b : Bool) : (s.skipIf b).st = s.st := by cases b <;> rfl
@[simp] theorem State.skipIf_disp (b : Bool) : (s.skipIf b).disp = s.disp := by cases b <;> rfl
@[simp] theorem State.skipIf_key (b : Bool) : (s.skipIf b).key = s.key := by cases b <;> rfl
@[simp] theorem State.skipIf_mem (b : Bool) : (s.skipIf b).mem = s.mem := by cases b <;> rfl
@[simp] theorem State.skipIf_romImage (b : Bool) : (s.skipIf b).romImage = s.romImage := by cases b <;> rfl
@[simp] theorem State.skipIf_config (b : Bool) : (s.skipIf b).config = s.config := by cases b <;> rfl
@[simp] theorem State.skipIf_report (b : Bool) : (s.skipIf b).report = s.report := by cases b <;> rfl
@[simp] theorem State.skipIf_soundOn (b : Bool) : (s.skipIf b).soundOn = s.soundOn := by cases b <;> rfl
@[simp] theorem State.skipIf_draws (b : Bool) : (s.skipIf b).draws = s.draws := by cases b <;> rfl
@[simp] theorem State.skipIf_diagSeen (b : Bool) : (s.skipIf b).diagSeen = s.diagSeen := by cases b <;> rfl

/-! ### Registers and bytes through the updates -/

theorem State.reg_setReg (x r : Reg) (b : Byte) : (s.setReg x b).reg r = if r = x then b else s.reg r := by
  simp only [State.reg, State.setReg, Fin.getElem_fin, Vector.getElem_set, Fin.ext_iff]
  by_cases h : x.val = r.val <;> simp [h, eq_comm]

@[simp] theorem State.reg_setReg_self (x : Reg) (b : Byte) : (s.setReg x b).reg x = b := by simp [State.reg_setReg]

theorem State.reg_setReg_ne {x r : Reg} (h : r ≠ x) (b : Byte) : (s.setReg x b).reg r = s.reg r := by
  simp [State.reg_setReg, h]

/-- The flag is written last, so it wins when the destination is VF (R23). -/
theorem State.reg_setResultAndFlag (x r : Reg) (result flag : Byte) :
    (s.setResultAndFlag x result flag).reg r =
      if r = regF then flag else if r = x then result else s.reg r := by
  simp only [State.setResultAndFlag, State.reg_setReg]

/-- A register read sees only the field `v`. -/
theorem State.reg_congr {s t : State} (h : t.v = s.v) (r : Reg) : t.reg r = s.reg r := by simp [State.reg, h]

/-- A byte read sees only the fields `config` and `mem`. -/
theorem State.byteAt_congr {s t : State} (hc : t.config = s.config) (hm : t.mem = s.mem) (a : Nat) :
    t.byteAt a = s.byteAt a := by simp [State.byteAt, hc, hm]

end Sys2Proof.Machine
end

