-- ==== Sys2Proof/Laws/Memory.lean ====
section
/-! SUPPORT. Memory: a byte read after a write, the canonical form kept by every operation, equal reads give equal memories; what the checked accesses do. -/

namespace Sys2Proof.Machine

variable {c : Config}

theorem unlistedByte_glyph {a : Nat} (h : a < 80) : unlistedByte c a = c.glyphs[a] := by simp [unlistedByte, h]

theorem unlistedByte_zero {a : Nat} (h : 80 ≤ a) : unlistedByte c a = 0 := by
  simp [unlistedByte, Nat.not_lt.mpr h]

/-- Every address listed in `m` is above `a`. -/
theorem Memory.read_of_lt {m : Memory} {a : Nat} (h : ∀ p ∈ m, a < p.1) : Memory.read c m a = unlistedByte c a := by
  induction m with
  | nil => rfl
  | cons p m ih =>
    have hp : a ≠ p.1 := Nat.ne_of_lt (h p (by simp))
    simp only [Memory.read, hp, if_false]
    exact ih fun q hq => h q (by simp [hq])

theorem Memory.read_keep (m : Memory) (a a' : Nat) (b : Byte)
    (h : a' = a → Memory.read c m a = unlistedByte c a) :
    Memory.read c (Memory.keep c a b m) a' = if a' = a then b else Memory.read c m a' := by
  unfold Memory.keep
  by_cases hb : b = unlistedByte c a
  · by_cases ha : a' = a
    · subst ha
      simp [hb, h rfl]
    · simp [hb, ha]
  · simp [hb, Memory.read]

/-- A read after a write, at the same address and at another. -/
theorem Memory.read_write {m : Memory} (hm : m.Pairwise fun p q => p.1 < q.1) (a a' : Nat) (b : Byte) :
    Memory.read c (Memory.write c m a b) a' = if a' = a then b else Memory.read c m a' := by
  induction m with
  | nil => exact Memory.read_keep [] a a' b fun _ => rfl
  | cons p m ih =>
    obtain ⟨hp, hm⟩ := List.pairwise_cons.mp hm
    by_cases hlt : a < p.1
    · simp only [Memory.write, hlt, if_true]
      refine Memory.read_keep _ a a' b fun _ => Memory.read_of_lt ?_
      rintro q (_ | ⟨_, hq⟩)
      · exact hlt
      · exact hlt.trans (hp q hq)
    · by_cases he : a = p.1
      · subst he
        simp only [Memory.write, lt_irrefl, if_false, if_true]
        rw [Memory.read_keep m p.1 a' b fun _ => Memory.read_of_lt hp]
        by_cases ha : a' = p.1 <;> simp [ha, Memory.read]
      · simp only [Memory.write, hlt, he, if_false, Memory.read, ih hm]
        by_cases ha : a' = a
        · simp [ha, he]
        · simp [ha]

/-- What a write lists: pairs that were listed, and perhaps the written one. -/
theorem Memory.mem_write {m : Memory} {a : Nat} {b : Byte} {p : Host.Cell} (h : p ∈ Memory.write c m a b) :
    p ∈ m ∨ (p = (a, b) ∧ b ≠ unlistedByte c a) := by
  have keep : ∀ l : Memory, p ∈ Memory.keep c a b l → p ∈ l ∨ (p = (a, b) ∧ b ≠ unlistedByte c a) := by
    intro l hl
    unfold Memory.keep at hl
    split at hl
    · exact .inl hl
    · rcases List.mem_cons.mp hl with rfl | hl
      · exact .inr ⟨rfl, ‹_›⟩
      · exact .inl hl
  induction m with
  | nil => exact keep [] h
  | cons q m ih =>
    simp only [Memory.write] at h
    split at h
    · exact keep _ h
    · split at h
      · exact (keep _ h).imp_left fun h => List.mem_cons_of_mem _ h
      · rcases List.mem_cons.mp h with rfl | h
        · simp
        · exact (ih h).imp_left fun h => List.mem_cons_of_mem _ h

theorem Memory.pairwise_write {m : Memory} (hm : m.Pairwise fun p q => p.1 < q.1) (a : Nat) (b : Byte) :
    (Memory.write c m a b).Pairwise fun p q => p.1 < q.1 := by
  have keep : ∀ l : Memory, (l.Pairwise fun p q => p.1 < q.1) → (∀ p ∈ l, a < p.1) →
      (Memory.keep c a b l).Pairwise fun p q => p.1 < q.1 := by
    intro l hl ha
    unfold Memory.keep
    split
    · exact hl
    · exact List.pairwise_cons.mpr ⟨ha, hl⟩
  induction m with
  | nil => exact keep [] hm (by simp)
  | cons p m ih =>
    obtain ⟨hp, hm'⟩ := List.pairwise_cons.mp hm
    simp only [Memory.write]
    split
    · refine keep _ hm ?_
      rintro q (_ | ⟨_, hq⟩)
      · assumption
      · exact Nat.lt_trans ‹_› (hp q hq)
    · split
      · exact keep _ hm' (by simpa [‹a = p.1›] using hp)
      · refine List.pairwise_cons.mpr ⟨fun q hq => ?_, ih hm'⟩
        rcases Memory.mem_write hq with hq | ⟨rfl, -⟩
        · exact hp q hq
        · show p.1 < a
          omega

theorem Memory.wf_write {m : Memory} (hm : Memory.wf c m) {a : Nat} (ha : a < memSize) (b : Byte) :
    Memory.wf c (Memory.write c m a b) := by
  refine ⟨Memory.pairwise_write hm.1 a b, fun p hp => ?_⟩
  rcases Memory.mem_write hp with hp | ⟨rfl, hb⟩
  · exact hm.2 p hp
  · exact ⟨ha, hb⟩

theorem Memory.pairwise_writeBytes {m : Memory} (hm : m.Pairwise fun p q => p.1 < q.1) (base : Nat) (bs : List Byte) :
    (Memory.writeBytes c m base bs).Pairwise fun p q => p.1 < q.1 := by
  induction bs generalizing m base with
  | nil => exact hm
  | cons b bs ih => exact ih (Memory.pairwise_write hm base b) (base + 1)

theorem Memory.wf_writeBytes {m : Memory} (hm : Memory.wf c m) {base : Nat} {bs : List Byte}
    (h : base + bs.length ≤ memSize) : Memory.wf c (Memory.writeBytes c m base bs) := by
  induction bs generalizing m base with
  | nil => exact hm
  | cons b bs ih =>
    simp only [List.length_cons] at h
    exact ih (Memory.wf_write hm (by omega) b) (by omega)

/-- What a write of bytes lists: pairs that were listed, or addresses of the access. -/
theorem Memory.mem_writeBytes {m : Memory} {base : Nat} {bs : List Byte} {p : Host.Cell}
    (h : p ∈ Memory.writeBytes c m base bs) : p ∈ m ∨ (base ≤ p.1 ∧ p.1 < base + bs.length) := by
  induction bs generalizing m base with
  | nil => exact .inl h
  | cons b bs ih =>
    rcases ih h with h | h
    · refine (Memory.mem_write h).imp_right fun ⟨hp, _⟩ => ?_
      simp [hp]
    · refine .inr ⟨by omega, ?_⟩
      simp only [List.length_cons]
      omega

/-- A read after a write of bytes: the written bytes at the access, the old ones elsewhere. -/
theorem Memory.read_writeBytes {m : Memory} (hm : m.Pairwise fun p q => p.1 < q.1) (base a : Nat) (bs : List Byte) :
    Memory.read c (Memory.writeBytes c m base bs) a =
      if h : base ≤ a ∧ a < base + bs.length then bs[a - base]'(by omega) else Memory.read c m a := by
  induction bs generalizing m base with
  | nil =>
    simp [Memory.writeBytes]
  | cons b bs ih =>
    rw [Memory.writeBytes, ih (Memory.pairwise_write hm base b), Memory.read_write hm]
    by_cases h1 : base + 1 ≤ a ∧ a < base + 1 + bs.length
    · have h2 : base ≤ a ∧ a < base + (b :: bs).length := by
        simp only [List.length_cons]
        omega
      simp only [h1, h2, and_self, dite_true]
      obtain ⟨k, rfl⟩ : ∃ k, a = base + 1 + k := ⟨a - (base + 1), by omega⟩
      simp [show base + 1 + k - base = k + 1 by omega]
    · by_cases h2 : a = base
      · subst h2
        simp
      · have h3 : ¬ (base ≤ a ∧ a < base + (b :: bs).length) := by
          simp only [List.length_cons]
          omega
        simp only [h1, h2, h3, dite_false, if_false]

/-- Equal reads and the canonical form make equal memories. -/
theorem Memory.ext_of_read {m n : Memory} (hm : Memory.wf c m) (hn : Memory.wf c n)
    (h : ∀ a, Memory.read c m a = Memory.read c n a) : m = n := by
  induction m generalizing n with
  | nil =>
    cases n with
    | nil => rfl
    | cons q n =>
      have hq := (hn.2 q (by simp)).2
      have := h q.1
      simp only [Memory.read, if_true] at this
      exact absurd this.symm hq
  | cons p m ih =>
    obtain ⟨hp, hm1⟩ := List.pairwise_cons.mp hm.1
    cases n with
    | nil =>
      have hp' := (hm.2 p (by simp)).2
      have := h p.1
      simp only [Memory.read, if_true] at this
      exact absurd this hp'
    | cons q n =>
      obtain ⟨hq, hn1⟩ := List.pairwise_cons.mp hn.1
      have low : ∀ {x y : Host.Cell} {l : Memory}, x.1 < y.1 → (∀ r ∈ l, y.1 < r.1) →
          Memory.read c (y :: l) x.1 = unlistedByte c x.1 := by
        intro x y l hxy hl
        refine Memory.read_of_lt ?_
        rintro r (_ | ⟨_, hr⟩)
        · exact hxy
        · exact hxy.trans (hl r hr)
      have heq : p.1 = q.1 := by
        rcases Nat.lt_trichotomy p.1 q.1 with hlt | heq | hlt
        · have := h p.1
          rw [low hlt hq] at this
          simp only [Memory.read, if_true] at this
          exact absurd this (hm.2 p (by simp)).2
        · exact heq
        · have := h q.1
          rw [low hlt hp] at this
          simp only [Memory.read, if_true] at this
          exact absurd this.symm (hn.2 q (by simp)).2
      have hb : p.2 = q.2 := by
        have := h p.1
        simpa [Memory.read, heq] using this
      have hpq : p = q := Prod.ext heq hb
      subst hpq
      refine congrArg (p :: ·) (ih ⟨hm1, fun r hr => hm.2 r (by simp [hr])⟩ ⟨hn1, fun r hr => hn.2 r (by simp [hr])⟩
        fun a => ?_)
      by_cases ha : a = p.1
      · subst ha
        rw [Memory.read_of_lt hp, Memory.read_of_lt hq]
      · simpa [Memory.read, ha] using h a

/-! ### The checked accesses -/

/-- Everything the range check can do (R55). -/
theorem checkRange_cases (base n : Nat) (k : Access) :
    ((n = 0 ∨ base + n ≤ memSize) ∧ checkRange base n k = .ok ()) ∨
      (n ≠ 0 ∧ memSize < base + n ∧ checkRange base n k = .error (.addressFault (max base memSize) k)) := by
  unfold checkRange
  by_cases h : n = 0 ∨ base + n ≤ memSize
  · exact .inl ⟨h, by simp [h]⟩
  · exact .inr ⟨by omega, by omega, by simp [h]⟩

/-- Everything the glyph-region store check can do (R56). -/
theorem checkGlyphStore_cases (p : GlyphStorePolicy) (base n : Nat) :
    ((n = 0 ∨ reservedTop < base ∨ p = .allow) ∧ checkGlyphStore p base n = .ok ()) ∨
      (n ≠ 0 ∧ base ≤ reservedTop ∧ p = .fault ∧ checkGlyphStore p base n = .error (.addressFault base .write)) := by
  unfold checkGlyphStore
  by_cases h : n = 0 ∨ reservedTop < base
  · exact .inl ⟨by tauto, by simp [h]⟩
  · cases p
    · exact .inr ⟨by omega, by omega, rfl, by simp [h]⟩
    · exact .inl ⟨by simp, by simp [h]⟩

/-- Everything `MemRead` can do (R14, R55). -/
theorem memRead_cases (s : State) (base n : Nat) :
    ((n = 0 ∨ base + n ≤ memSize) ∧ memRead s base n = .ok ((List.range n).map fun k => s.byteAt (base + k))) ∨
      (n ≠ 0 ∧ memSize < base + n ∧ memRead s base n = .error (.addressFault (max base memSize) .read)) := by
  unfold memRead
  rcases checkRange_cases base n .read with ⟨h, e⟩ | ⟨h0, h1, e⟩
  · exact .inl ⟨h, by rw [e]⟩
  · exact .inr ⟨h0, h1, by rw [e]⟩

/-- Everything `MemWrite` of at least one byte can do (R14, R55, R56). -/
theorem memWrite_cases (s : State) (base : Nat) {bs : List Byte} (hbs : bs ≠ []) :
    (base + bs.length ≤ memSize ∧ (reservedTop < base ∨ s.config.glyphStore = .allow) ∧
      memWrite s base bs = .ok { s with mem := Memory.writeBytes s.config s.mem base bs }) ∨
    (memSize < base + bs.length ∧ memWrite s base bs = .error (.addressFault (max base memSize) .write)) ∨
    (base + bs.length ≤ memSize ∧ base ≤ reservedTop ∧ s.config.glyphStore = .fault ∧
      memWrite s base bs = .error (.addressFault base .write)) := by
  have hl : bs.length ≠ 0 := by simpa using hbs
  unfold memWrite
  rcases checkRange_cases base bs.length .write with ⟨h, e⟩ | ⟨-, h, e⟩
  · rcases checkGlyphStore_cases s.config.glyphStore base bs.length with ⟨g, e'⟩ | ⟨-, g, g', e'⟩
    · exact .inl ⟨by omega, by tauto, by rw [e, e']⟩
    · exact .inr (.inr ⟨by omega, g, g', by rw [e, e']⟩)
  · exact .inr (.inl ⟨h, by rw [e]⟩)

end Sys2Proof.Machine
end

