-- ==== Sys2Proof/Laws/Operands.lean ====
section
/-! SUPPORT. What the operand forms, the flag computations and the stack operations give, in numbers. -/

namespace Sys2Proof.Machine

/-! ### Immediates and flags -/

theorem zextAddr_toNat (nnn : Addr) : (zextAddr nnn).toNat = nnn.toNat := by
  have := nnn.isLt
  simp only [zextAddr, BitVec.toNat_setWidth]
  omega

theorem zextByte_toNat (b : Byte) : (zextByte b).toNat = b.toNat := by
  have := b.isLt
  simp only [zextByte, BitVec.toNat_setWidth]
  omega

theorem glyphAddr_toNat (b : Byte) : (glyphAddr b).toNat = 5 * b.toNat := by
  have := b.isLt
  rw [glyphAddr, BitVec.toNat_mul, zextByte_toNat, show (5 : Word).toNat = 5 from rfl]
  omega

theorem flagByte_toNat (b : Bool) : (flagByte b).toNat = if b then 1 else 0 := by cases b <;> rfl

theorem shiftedOutRight_toNat (x : Byte) : (shiftedOutRight x).toNat = x.toNat % 2 := by
  rw [shiftedOutRight, BitVec.toNat_and, show (1 : Byte).toNat = 1 from rfl, Nat.and_one_is_mod]

theorem shiftedOutLeft_toNat (x : Byte) : (shiftedOutLeft x).toNat = x.toNat / 128 := by
  have := x.isLt
  rw [shiftedOutLeft, BitVec.toNat_and, BitVec.toNat_ushiftRight, show (1 : Byte).toNat = 1 from rfl, Nat.and_one_is_mod,
    Nat.shiftRight_eq_div_pow]
  omega

theorem ushiftRight_one_toNat (x : Byte) : (x >>> 1).toNat = x.toNat / 2 := by
  rw [BitVec.toNat_ushiftRight, Nat.shiftRight_eq_div_pow]

theorem shiftLeft_one_toNat (x : Byte) : (x <<< 1).toNat = 2 * x.toNat % 256 := by
  rw [BitVec.toNat_shiftLeft, Nat.shiftLeft_eq]
  omega

theorem sub_toNat (x y : Byte) : (x - y).toNat = (x.toNat + 256 - y.toNat) % 256 := by
  have := x.isLt
  have := y.isLt
  rw [BitVec.toNat_sub]
  omega

/-! ### Decimal digits, register blocks -/

@[simp] theorem decimalDigits_length (b : Byte) : (decimalDigits b).length = 3 := rfl

/-- The three bytes of FX33 are the decimal digits as numbers (R174). -/
theorem decimalDigits_toNat (b : Byte) :
    (decimalDigits b).map BitVec.toNat = [b.toNat / 100, b.toNat / 10 % 10, b.toNat % 10] := by
  have := b.isLt
  simp only [decimalDigits, List.map_cons, List.map_nil, BitVec.toNat_ofNat]
  congr 1 <;> [skip; congr 1] <;> [skip; skip; congr 1] <;> omega

@[simp] theorem State.regsTo_length (s : State) (x : Reg) : (s.regsTo x).length = x.val + 1 := by
  have := x.isLt
  simp only [State.regsTo, List.length_take, Vector.length_toList]
  omega

/-- Byte i of the block V0 to VX is V[i] (R175). -/
theorem State.regsTo_getElem (s : State) (x : Reg) (i : Nat) (h : i < (s.regsTo x).length) :
    (s.regsTo x)[i] = s.reg ⟨i, by rw [State.regsTo_length] at h; have := x.isLt; omega⟩ := by
  simp [State.regsTo, State.reg]

/-- Loading a block writes the register each byte is for, and no other (R176). -/
theorem loadRegs_getElem (k : Nat) (bs : List Byte) (v : Vector Byte 16) (r : Nat) (hr : r < 16) :
    (loadRegs k bs v)[r] = if h : k ≤ r ∧ r < k + bs.length then bs[r - k]'(by omega) else v[r] := by
  induction bs generalizing k v with
  | nil => simp [loadRegs]
  | cons b bs ih =>
    rw [loadRegs, ih]
    by_cases h1 : k + 1 ≤ r ∧ r < k + 1 + bs.length
    · have h2 : k ≤ r ∧ r < k + (b :: bs).length := by
        simp only [List.length_cons]
        omega
      simp only [h1, h2, and_self, dite_true]
      obtain ⟨j, rfl⟩ : ∃ j, r = k + 1 + j := ⟨r - (k + 1), by omega⟩
      simp [show k + 1 + j - k = j + 1 by omega]
    · by_cases h2 : r = k
      · subst h2
        simp [hr]
      · have h3 : ¬ (k ≤ r ∧ r < k + (b :: bs).length) := by
          simp only [List.length_cons]
          omega
        simp only [h1, h3, dite_false]
        split
        · exact Vector.getElem_set_ne _ _ (Ne.symm h2)
        · rfl

/-! ### The stack -/

/-- Everything a push can do (R122). -/
theorem push_cases (s : State) (a : Word) :
    (s.sp.val = 12 ∧ push s a = .error (.stackOverflow (s.pc - 2))) ∨
      (∃ h : s.sp.val < 12, push s a =
        .ok { s with stack := s.stack.set s.sp.val a h, sp := ⟨s.sp.val + 1, by omega⟩ }) := by
  have := s.sp.isLt
  unfold push
  by_cases h : s.sp.val = 12
  · exact .inl ⟨h, by simp [h]⟩
  · exact .inr ⟨by omega, by simp [h]⟩

/-- Everything a pop into PC can do (R120). -/
theorem popPc_cases (s : State) :
    (s.sp.val = 0 ∧ popPc s = .error (.stackUnderflow (s.pc - 2))) ∨
      (∃ h : 0 < s.sp.val, popPc s = .ok { s with
        sp := ⟨s.sp.val - 1, by have := s.sp.isLt; omega⟩
        pc := s.stack[s.sp.val - 1]'(by have := s.sp.isLt; omega) }) := by
  unfold popPc
  by_cases h : s.sp.val = 0
  · exact .inl ⟨h, by simp [h]⟩
  · exact .inr ⟨by omega, by simp [h]⟩

/-! ### The keypad -/

/-- Everything naming a key can do (R210, R211). -/
theorem keyNamed_cases (s : State) (k : Byte) :
    (∃ h : k.toNat < 16, keyNamed s k = .ok s.key[k.toNat]) ∨
      (16 ≤ k.toNat ∧ keyNamed s k = .error (.keyIndexFault k)) := by
  unfold keyNamed
  by_cases h : k.toNat < 16
  · exact .inl ⟨h, by simp [h]⟩
  · exact .inr ⟨by omega, by simp [h]⟩

/-- The scan finds the lowest pressed key (R213). -/
theorem firstPressed_eq_some {key : Vector Bool 16} {k : Reg} (h : firstPressed key = some k) :
    key[k] = true ∧ ∀ j : Reg, j < k → key[j] = false := by
  obtain ⟨hk, as, bs, hs, hn⟩ := List.find?_eq_some_iff_append.mp h
  refine ⟨hk, fun j hj => ?_⟩
  have hsorted : (List.finRange 16).Pairwise (· < ·) := List.pairwise_lt_finRange 16
  rw [hs] at hsorted
  have hj' : j ∈ as ++ k :: bs := hs ▸ List.mem_finRange j
  rcases List.mem_append.mp hj' with hj' | hj'
  · simpa using hn j hj'
  · rcases List.mem_cons.mp hj' with rfl | hj'
    · exact absurd hj (lt_irrefl _)
    · have := (List.pairwise_cons.mp (List.pairwise_append.mp hsorted).2.1).1 j hj'
      exact absurd (hj.trans this) (lt_irrefl _)

/-- The scan finds nothing exactly when no key is pressed (R213). -/
theorem firstPressed_eq_none {key : Vector Bool 16} : firstPressed key = none ↔ ∀ j : Reg, key[j] = false := by
  simp [firstPressed]

end Sys2Proof.Machine
end

