-- ==== Sys2Proof/Laws/Display.lean ====
section
/-! SUPPORT. The display and the draw unit: what one draw does to every pixel, and when it collides. -/

namespace Sys2Proof.Machine

theorem Display.pixel_setPixel (d : Display) (x y x' y' : Nat) (b : Bool) :
    Display.pixel (Display.setPixel d x y b) x' y' =
      if x' = x ∧ y' = y ∧ x < 64 ∧ y < 32 then b else Display.pixel d x' y' := by
  unfold Display.setPixel
  by_cases h : x < 64 ∧ y < 32
  · simp only [h, and_self, dite_true, and_true]
    unfold Display.pixel
    by_cases h' : x' < 64 ∧ y' < 32
    · simp only [h', and_self, dite_true]
      by_cases hy : y' = y
      · subst hy
        by_cases hx : x' = x
        · subst hx
          simp
        · simp [hx, Vector.getElem_set_ne _ _ (Ne.symm hx)]
      · simp [hy, Vector.getElem_set_ne _ _ (Ne.symm hy)]
    · have : ¬ (x' = x ∧ y' = y) := fun e => h' (e.1 ▸ e.2 ▸ h)
      simp only [h', this, dite_false, if_false]
  · simp only [h, dite_false, and_false, if_false]

@[simp] theorem Display.pixel_clear (x y : Nat) : Display.pixel Display.clear x y = false := by
  simp [Display.pixel, Display.clear]

theorem Display.pixel_outside (d : Display) {x y : Nat} (h : ¬ (x < 64 ∧ y < 32)) : Display.pixel d x y = false := by
  simp only [Display.pixel, h, dite_false]

/-- Displays with equal pixels are equal. -/
theorem Display.ext_of_pixel {d e : Display} (h : ∀ x y, Display.pixel d x y = Display.pixel e x y) : d = e := by
  refine Vector.ext fun y hy => Vector.ext fun x hx => ?_
  simpa [Display.pixel, hx, hy] using h x y

/-! ### The draw unit -/

/-- The sprite bit that falls on column x of one row drawn from column x0 on: no bit falls at column 64 or beyond (R193). -/
def rowBitAt (x0 : Nat) (bits : List Bool) (x : Nat) : Bool :=
  decide (x0 ≤ x ∧ x < 64) && bits.getD (x - x0) false

/-- The sprite bit that falls on a pixel, of rows drawn at an origin (R191, R193). -/
def spriteBitAt (ox oy : Nat) (rows : List Byte) (x y : Nat) : Bool :=
  decide (oy ≤ y ∧ y < 32 ∧ y < oy + rows.length) && rowBitAt ox (rowBits (rows.getD (y - oy) 0)) x

theorem drawRow_spec {y : Nat} (hy : y < 32) (bits : List Bool) : ∀ (x0 : Nat) (p : Display × Bool), x0 ≤ 64 →
    (∀ x' y', Display.pixel (drawRow y x0 bits p).1 x' y' =
      (Display.pixel p.1 x' y' ^^ (decide (y' = y) && rowBitAt x0 bits x'))) ∧
    ((drawRow y x0 bits p).2 = true ↔
      p.2 = true ∨ ∃ x', rowBitAt x0 bits x' = true ∧ Display.pixel p.1 x' y = true) := by
  induction bits with
  | nil => intro x0 p _; simp [drawRow, rowBitAt]
  | cons b bs ih =>
    intro x0 p hx0
    unfold drawRow
    by_cases hx : x0 = dispWidth
    · subst hx
      have hno : ∀ x', rowBitAt 64 (b :: bs) x' = false := fun x' => by
        simp only [rowBitAt, Bool.and_eq_false_imp, decide_eq_true_eq]
        omega
      simp [hno]
    · have hlt : x0 < 64 := Nat.lt_of_le_of_ne hx0 hx
      simp only [hx, if_false]
      obtain ⟨ihp, ihc⟩ := ih (x0 + 1) (drawBit x0 y b p) hlt
      have hhere : rowBitAt x0 (b :: bs) x0 = b := by simp [rowBitAt, hlt]
      have hnext0 : rowBitAt (x0 + 1) bs x0 = false := by simp [rowBitAt]
      have hnext : ∀ x', x' ≠ x0 → rowBitAt x0 (b :: bs) x' = rowBitAt (x0 + 1) bs x' := by
        intro x' hne
        by_cases hle : x0 + 1 ≤ x'
        · obtain ⟨k, rfl⟩ : ∃ k, x' = x0 + 1 + k := ⟨x' - (x0 + 1), by omega⟩
          simp [rowBitAt, show x0 + 1 + k - x0 = k + 1 by omega, show x0 ≤ x0 + 1 + k by omega]
        · have : ¬ x0 ≤ x' := by omega
          simp [rowBitAt, hle, this]
      constructor
      · intro x' y'
        rw [ihp x' y']
        simp only [drawBit, Display.pixel_setPixel]
        by_cases hxy : x' = x0 ∧ y' = y
        · obtain ⟨rfl, rfl⟩ := hxy
          simp [hhere, hnext0, hlt, hy]
        · by_cases hx' : x' = x0
          · have : y' ≠ y := fun e => hxy ⟨hx', e⟩
            simp [hx', this]
          · simp [hx', hnext x' hx']
      · rw [ihc]
        simp only [drawBit, Display.pixel_setPixel]
        constructor
        · rintro (h | ⟨x', h1, h2⟩)
          · rcases (Bool.or_eq_true _ _).mp h with h | h
            · exact .inl h
            · obtain ⟨hb, hp⟩ := (Bool.and_eq_true _ _).mp h
              exact .inr ⟨x0, hhere.trans hb, hp⟩
          · have hne : x' ≠ x0 := by
              rintro rfl
              rw [hnext0] at h1
              cases h1
            exact .inr ⟨x', (hnext x' hne).trans h1, by simpa [hne] using h2⟩
        · rintro (h | ⟨x', h1, h2⟩)
          · exact .inl (by simp [h])
          · by_cases hne : x' = x0
            · subst hne
              rw [hhere] at h1
              exact .inl (by simp [h1, h2])
            · exact .inr ⟨x', (hnext x' hne).symm.trans h1, by simpa [hne] using h2⟩

theorem drawRows_spec {ox : Nat} (hox : ox ≤ 64) (rows : List Byte) : ∀ (y0 : Nat) (p : Display × Bool), y0 ≤ 32 →
    (∀ x y, Display.pixel (drawRows ox y0 rows p).1 x y =
      (Display.pixel p.1 x y ^^ spriteBitAt ox y0 rows x y)) ∧
    ((drawRows ox y0 rows p).2 = true ↔ p.2 = true ∨ Hits p.1 (spriteBitAt ox y0 rows)) := by
  induction rows with
  | nil =>
    intro y0 p _
    have hno : ∀ x y, spriteBitAt ox y0 [] x y = false := fun x y => by
      have : ¬ (y0 ≤ y ∧ y < 32 ∧ y < y0 + ([] : List Byte).length) := by
        simp only [List.length_nil]
        omega
      simp only [spriteBitAt, this, decide_false, Bool.false_and]
    simp [drawRows, Hits, hno]
  | cons r rs ih =>
    intro y0 p hy0
    unfold drawRows
    by_cases hy : y0 = dispHeight
    · subst hy
      have hno : ∀ x y, spriteBitAt ox 32 (r :: rs) x y = false := fun x y => by
        have : ¬ (32 ≤ y ∧ y < 32 ∧ y < 32 + (r :: rs).length) := by omega
        simp only [spriteBitAt, this, decide_false, Bool.false_and]
      simp [Hits, hno]
    · have hlt : y0 < 32 := Nat.lt_of_le_of_ne hy0 hy
      simp only [hy, if_false]
      obtain ⟨rowp, rowc⟩ := drawRow_spec hlt (rowBits r) ox p hox
      obtain ⟨ihp, ihc⟩ := ih (y0 + 1) (drawRow y0 ox (rowBits r) p) hlt
      have hhere : ∀ x, spriteBitAt ox y0 (r :: rs) x y0 = rowBitAt ox (rowBits r) x := fun x => by
        simp [spriteBitAt, hlt]
      have hnext0 : ∀ x, spriteBitAt ox (y0 + 1) rs x y0 = false := fun x => by simp [spriteBitAt]
      have hnext : ∀ x y, y ≠ y0 → spriteBitAt ox y0 (r :: rs) x y = spriteBitAt ox (y0 + 1) rs x y := by
        intro x y hne
        by_cases hle : y0 + 1 ≤ y
        · obtain ⟨k, rfl⟩ : ∃ k, y = y0 + 1 + k := ⟨y - (y0 + 1), by omega⟩
          have e1 : y0 + 1 + k - y0 = k + 1 := by omega
          have e2 : y0 + 1 + k - (y0 + 1) = k := by omega
          have e3 : (y0 ≤ y0 + 1 + k ∧ y0 + 1 + k < 32 ∧ y0 + 1 + k < y0 + (r :: rs).length) ↔
              (y0 + 1 ≤ y0 + 1 + k ∧ y0 + 1 + k < 32 ∧ y0 + 1 + k < y0 + 1 + rs.length) := by
            simp only [List.length_cons]
            omega
          simp only [spriteBitAt, e1, e2, e3, List.getD_cons_succ]
        · have : ¬ y0 ≤ y := by omega
          simp [spriteBitAt, hle, this]
      constructor
      · intro x y
        rw [ihp, rowp]
        by_cases hyy : y = y0
        · subst hyy
          simp [hhere, hnext0]
        · simp [hyy, hnext x y hyy]
      · rw [ihc, rowc]
        constructor
        · rintro ((h | ⟨x, h1, h2⟩) | ⟨x, y, h1, h2⟩)
          · exact .inl h
          · exact .inr ⟨x, y0, (hhere x).trans h1, h2⟩
          · have hne : y ≠ y0 := by
              rintro rfl
              rw [hnext0] at h1
              cases h1
            refine .inr ⟨x, y, (hnext x y hne).trans h1, ?_⟩
            rw [rowp] at h2
            simpa [hne] using h2
        · rintro (h | ⟨x, y, h1, h2⟩)
          · exact .inl (.inl h)
          · by_cases hne : y = y0
            · subst hne
              exact .inl (.inr ⟨x, (hhere x).symm.trans h1, h2⟩)
            · refine .inr ⟨x, y, (hnext x y hne).symm.trans h1, ?_⟩
              rw [rowp]
              simpa [hne] using h2

theorem rowBits_getD (r : Byte) (k : Nat) : (rowBits r).getD k false = (decide (k < 8) && r.getLsbD (7 - k)) := by
  match k with
  | 0 | 1 | 2 | 3 | 4 | 5 | 6 | 7 => simp [rowBits]
  | k + 8 => simp [rowBits]

theorem spriteBitAt_eq (ox oy : Nat) (rows : List Byte) : spriteBitAt ox oy rows = spriteBit ox oy rows := by
  funext x y
  rw [spriteBitAt, rowBitAt, rowBits_getD, spriteBit, Bool.eq_iff_iff]
  simp only [Bool.and_eq_true, decide_eq_true_eq]
  constructor
  · rintro ⟨h1, h2, h3, h4⟩
    exact ⟨by omega, h4⟩
  · rintro ⟨h1, h2⟩
    exact ⟨by omega, by omega, by omega, h2⟩

/-- Everything a draw does: each pixel is XORed with the sprite bit that falls on it, and a collision is a set sprite bit on a
pixel that was on (R191, R193). -/
theorem draw_spec (d : Display) {ox oy : Nat} (hox : ox < 64) (hoy : oy < 32) (rows : List Byte) :
    (∀ x y, Display.pixel (draw d ox oy rows).1 x y = (Display.pixel d x y ^^ spriteBit ox oy rows x y)) ∧
    ((draw d ox oy rows).2 = true ↔ Hits d (spriteBit ox oy rows)) := by
  rw [← spriteBitAt_eq]
  simpa [draw] using drawRows_spec (by omega : ox ≤ 64) rows oy (d, false) (by omega)

theorem State.originX_lt (s : State) (x : Reg) : s.originX x < 64 := Nat.mod_lt _ (by decide)

theorem State.originY_lt (s : State) (y : Reg) : s.originY y < 32 := Nat.mod_lt _ (by decide)

end Sys2Proof.Machine
end

