-- ==== Sys2Proof/Laws/PerInstr.lean ====
section
/-! SUPPORT. One lemma per constructor of Instr: the encoded word has the fixed bits of its row of the opcode map (spec 30_encoding.md R84; row 35 of spec/opcode_table.json for 0NNN). -/

namespace Sys2Proof.Laws.EncodedRow

/-- The word of the instruction passes the test `(w & mask) == match` of its row (R84). -/
def Statement (i : Instr) : Prop := encode i &&& i.opcodeRow.mask = i.opcodeRow.bits

theorem cls : Statement .cls := rfl
theorem ret : Statement .ret := rfl
theorem jpAddr (nnn : Addr) : Statement (.jpAddr nnn) := row_FNNN 0x1#4 nnn
theorem callAddr (nnn : Addr) : Statement (.callAddr nnn) := row_FNNN 0x2#4 nnn
theorem seVxByte (x : Reg) (nn : Byte) : Statement (.seVxByte x nn) := row_FXNN 0x3#4 x nn
theorem sneVxByte (x : Reg) (nn : Byte) : Statement (.sneVxByte x nn) := row_FXNN 0x4#4 x nn
theorem seVxVy (x y : Reg) : Statement (.seVxVy x y) := row_FXYN 0x5#4 x y 0x0#4
theorem ldVxByte (x : Reg) (nn : Byte) : Statement (.ldVxByte x nn) := row_FXNN 0x6#4 x nn
theorem addVxByte (x : Reg) (nn : Byte) : Statement (.addVxByte x nn) := row_FXNN 0x7#4 x nn
theorem ldVxVy (x y : Reg) : Statement (.ldVxVy x y) := row_FXYN 0x8#4 x y 0x0#4
theorem orVxVy (x y : Reg) : Statement (.orVxVy x y) := row_FXYN 0x8#4 x y 0x1#4
theorem andVxVy (x y : Reg) : Statement (.andVxVy x y) := row_FXYN 0x8#4 x y 0x2#4
theorem xorVxVy (x y : Reg) : Statement (.xorVxVy x y) := row_FXYN 0x8#4 x y 0x3#4
theorem addVxVy (x y : Reg) : Statement (.addVxVy x y) := row_FXYN 0x8#4 x y 0x4#4
theorem subVxVy (x y : Reg) : Statement (.subVxVy x y) := row_FXYN 0x8#4 x y 0x5#4
theorem shrVx (x y : Reg) : Statement (.shrVx x y) := row_FXYN 0x8#4 x y 0x6#4
theorem subnVxVy (x y : Reg) : Statement (.subnVxVy x y) := row_FXYN 0x8#4 x y 0x7#4
theorem shlVx (x y : Reg) : Statement (.shlVx x y) := row_FXYN 0x8#4 x y 0xE#4
theorem sneVxVy (x y : Reg) : Statement (.sneVxVy x y) := row_FXYN 0x9#4 x y 0x0#4
theorem ldIAddr (nnn : Addr) : Statement (.ldIAddr nnn) := row_FNNN 0xA#4 nnn
theorem jpV0Addr (nnn : Addr) : Statement (.jpV0Addr nnn) := row_FNNN 0xB#4 nnn
theorem rndVxByte (x : Reg) (nn : Byte) : Statement (.rndVxByte x nn) := row_FXNN 0xC#4 x nn
theorem drwVxVyNibble (x y : Reg) (n : Nibble) : Statement (.drwVxVyNibble x y n) := by
  show (0xD#4 ++ regBits x ++ regBits y ++ n) &&& 0xF000#16 = _
  rw [mask_F000, (fields_FXYN 0xD#4 x y n).1]
  rfl
theorem skpVx (x : Reg) : Statement (.skpVx x) := row_FX 0xE#4 x 0x9E#8
theorem sknpVx (x : Reg) : Statement (.sknpVx x) := row_FX 0xE#4 x 0xA1#8
theorem ldVxDt (x : Reg) : Statement (.ldVxDt x) := row_FX 0xF#4 x 0x07#8
theorem ldVxK (x : Reg) : Statement (.ldVxK x) := row_FX 0xF#4 x 0x0A#8
theorem ldDtVx (x : Reg) : Statement (.ldDtVx x) := row_FX 0xF#4 x 0x15#8
theorem ldStVx (x : Reg) : Statement (.ldStVx x) := row_FX 0xF#4 x 0x18#8
theorem addIVx (x : Reg) : Statement (.addIVx x) := row_FX 0xF#4 x 0x1E#8
theorem ldFVx (x : Reg) : Statement (.ldFVx x) := row_FX 0xF#4 x 0x29#8
theorem ldBVx (x : Reg) : Statement (.ldBVx x) := row_FX 0xF#4 x 0x33#8
theorem ldIndVx (x : Reg) : Statement (.ldIndVx x) := row_FX 0xF#4 x 0x55#8
theorem ldVxInd (x : Reg) : Statement (.ldVxInd x) := row_FX 0xF#4 x 0x65#8
theorem sysAddr (nnn : Addr) : Statement (.sysAddr nnn) := row_FNNN 0x0#4 nnn

end Sys2Proof.Laws.EncodedRow
end

