-- ==== Sys2Proof/Laws/Step.lean ====
section
/-! SUPPORT. What the fetch, the end of an instruction, the program image and the host's store of a word do. -/

namespace Sys2Proof.Machine

/-- Everything the fetch can do (R101). -/
theorem fetch_cases (s : State) :
    ((s.pc.toNat % 2 = 1 ∧ s.config.oddPc = .fault) ∧ fetch s = .error (.addressFault s.pc.toNat .fetch)) ∨
    (¬ (s.pc.toNat % 2 = 1 ∧ s.config.oddPc = .fault) ∧ memSize ≤ s.pc.toNat + 1 ∧
      fetch s = .error (.addressFault (max s.pc.toNat memSize) .fetch)) ∨
    (¬ (s.pc.toNat % 2 = 1 ∧ s.config.oddPc = .fault) ∧ s.pc.toNat + 1 < memSize ∧
      fetch s = .ok (wordOfBytes (s.byteAt s.pc.toNat) (s.byteAt (s.pc.toNat + 1)))) := by
  unfold fetch
  by_cases h1 : s.pc.toNat % 2 = 1 ∧ s.config.oddPc = .fault
  · exact .inl ⟨h1, by simp [h1]⟩
  · by_cases h2 : memSize ≤ s.pc.toNat + 1
    · exact .inr (.inl ⟨h1, h2, by simp only [h1, h2, if_false, if_true]⟩)
    · exact .inr (.inr ⟨h1, by omega, by simp only [h1, h2, if_false]⟩)

/-- An instruction that may raise ends in one of two ways (R105, R107). -/
theorem conclude_cases {s : State} {r : Except Diagnostic State} {t : State} (h : conclude s r = .next t) :
    (∃ u, r = .ok u ∧ t = u.complete) ∨ (∃ d, r = .error d ∧ t = s.raise d) := by
  cases r with
  | ok u => exact .inl ⟨u, rfl, (Host.Outcome.next.inj h).symm⟩
  | error d => exact .inr ⟨d, rfl, (Host.Outcome.next.inj h).symm⟩

theorem conclude_ok {s t : State} {r : Except Diagnostic State} (h : r = .ok t) : conclude s r = .next t.complete := by
  rw [h]
  rfl

theorem conclude_error {s : State} {d : Diagnostic} {r : Except Diagnostic State} (h : r = .error d) :
    conclude s r = .next (s.raise d) := by
  rw [h]
  rfl

/-- The memory of a reset reads as the program image where there is one, and as the unlisted bytes elsewhere (R270). -/
theorem read_imageMemory (c : Config) (image : List Byte) (a : Nat) :
    Memory.read c (imageMemory c image) a =
      if h : progBase ≤ a ∧ a < progBase + image.length then image[a - progBase]'(by omega) else unlistedByte c a :=
  Memory.read_writeBytes List.Pairwise.nil progBase a image

/-- The memory of a reset has the canonical form when the program image fits. -/
theorem wf_imageMemory (c : Config) {image : List Byte} (h : image.length ≤ maxProg) : Memory.wf c (imageMemory c image) :=
  Memory.wf_writeBytes ⟨List.Pairwise.nil, by simp⟩ (by
    simp only [progBase, memSize, maxProg] at h ⊢
    omega)

/-- Storing a table word at PC keeps the canonical form. -/
theorem wf_withFetchWord {s : State} (h : Memory.wf s.config s.mem) (nbits w : Nat) :
    Memory.wf (s.withFetchWord nbits w).config (s.withFetchWord nbits w).mem := by
  unfold State.withFetchWord
  split
  · exact Memory.wf_writeBytes h (by simp only [tableWordBytes, bytesOfWord, List.length_cons, List.length_nil]; omega)
  · exact h

/-- After storing a table word at a PC where the fetch passes its checks, the fetch reads exactly that word. -/
theorem fetch_withFetchWord {s : State} (hm : Memory.wf s.config s.mem) (hpc : s.pc.toNat + 1 < memSize)
    (hodd : ¬ (s.pc.toNat % 2 = 1 ∧ s.config.oddPc = .fault)) (nbits w : Nat) :
    fetch (s.withFetchWord nbits w) = .ok (BitVec.ofNat 16 (w % 2 ^ nbits)) := by
  have e : s.withFetchWord nbits w =
      { s with mem := Memory.writeBytes s.config s.mem s.pc.toNat (tableWordBytes nbits w) } := by
    simp [State.withFetchWord, hpc]
  have h2 : ¬ memSize ≤ s.pc.toNat + 1 := by omega
  rw [e, fetch]
  simp only [hodd, h2, if_false, State.byteAt, Memory.read_writeBytes hm.1]
  simp [tableWordBytes, bytesOfWord, wordOfBytes_bytes]

end Sys2Proof.Machine
end

