-- ==== Sys2Proof/Tests/Slice0.lean ====
section
/-! SUPPORT. Tests: words written out from the patterns of spec 30_encoding.md R84, vectors of 95_test_vectors.md (named in each comment), and a witness for the hypotheses of each statement. -/

namespace Sys2Proof.Tests

open Sys2Proof.Machine

/-! ### Helpers -/

/-- The font G1 of spec 93_implementation_defined.md, in rows of four glyphs. -/
def fontBytes : List Byte :=
  ([0xF0, 0x90, 0x90, 0x90, 0xF0, 0x20, 0x60, 0x20, 0x20, 0x70, 0xF0, 0x10, 0xF0, 0x80, 0xF0, 0xF0, 0x10, 0xF0, 0x10, 0xF0] : List Byte)
  ++ [0x90, 0x90, 0xF0, 0x10, 0x10, 0xF0, 0x80, 0xF0, 0x10, 0xF0, 0xF0, 0x80, 0xF0, 0x90, 0xF0, 0xF0, 0x10, 0x20, 0x40, 0x40]
  ++ [0xF0, 0x90, 0xF0, 0x90, 0xF0, 0xF0, 0x90, 0xF0, 0x10, 0xF0, 0xF0, 0x90, 0xF0, 0x90, 0x90, 0xE0, 0x90, 0xE0, 0x90, 0xE0]
  ++ [0xF0, 0x80, 0x80, 0x80, 0xF0, 0xE0, 0x90, 0x90, 0x90, 0xE0, 0xF0, 0x80, 0xF0, 0x80, 0xF0, 0xF0, 0x80, 0xF0, 0x80, 0x80]

def testConfig : Config := ⟨⟨fontBytes.toArray, by decide⟩, .fault, .fault, 180⟩

/-- The reset state with the configuration the vectors assume, and VF = 0x55 so that an untouched flag shows. -/
def start : State := { State.reset with config := testConfig, v := State.reset.v.set 15 0x55 }

/-- The same with both policies permissive. -/
def permissive : State := { start with config := { testConfig with glyphStore := .allow, oddPc := .fetch } }

def withRegs (rs : List (Reg × Byte)) (s : State) : State := rs.foldl (fun s p => s.setReg p.1 p.2) s

def withBytes (base : Nat) (bs : List Byte) (s : State) : State :=
  { s with mem := Memory.writeBytes s.config s.mem base bs }

def nextOf (o : Host.Outcome State Fault Refusal) : Option State :=
  match o with
  | .next t => some t
  | .fault _ => none
  | .refused _ => none

/-- One step that runs the word `w`. -/
def runWord (w : Nat) (s : State) : Option State := nextOf (step (s.withFetchWord 16 w))

/-- The pixels that are on in the rows and columns given. -/
def onIn (xs ys : List Nat) (d : Display) : List (Nat × Nat) :=
  (ys.flatMap fun y => xs.map fun x => (x, y)).filter fun p => Display.pixel d p.1 p.2

/-! ### Well-formedness -/

theorem test_wellFormed_refuses_sys_of_cls : (Instr.sysAddr 0x0E0).wellFormed = false := by decide
theorem test_wellFormed_refuses_sys_of_ret : (Instr.sysAddr 0x0EE).wellFormed = false := by decide
theorem test_wellFormed_admits_other_sys : (Instr.sysAddr 0x1E0).wellFormed = true := by decide

/-! ### Decoding: words from the patterns of R84, the digits written in binary -/

theorem test_decode_cls : decode 0b0000000011100000 = .ok .cls := by decide
theorem test_decode_ret : decode 0b0000000011101110 = .ok .ret := by decide
theorem test_decode_jpAddr : decode 0b0001101010111100 = .ok (.jpAddr 0xABC) := by decide
theorem test_decode_callAddr : decode 0b0010001000001100 = .ok (.callAddr 0x20C) := by decide
theorem test_decode_seVxByte : decode 0b0011010100010001 = .ok (.seVxByte 5 0x11) := by decide
theorem test_decode_sneVxByte : decode 0b0100111100000001 = .ok (.sneVxByte 15 0x01) := by decide
theorem test_decode_seVxVy : decode 0b0101000100100000 = .ok (.seVxVy 1 2) := by decide
theorem test_decode_ldVxByte : decode 0b0110101011111111 = .ok (.ldVxByte 10 0xFF) := by decide
theorem test_decode_addVxByte : decode 0b0111000010000000 = .ok (.addVxByte 0 0x80) := by decide
theorem test_decode_ldVxVy : decode 0b1000000111110000 = .ok (.ldVxVy 1 15) := by decide
theorem test_decode_orVxVy : decode 0b1000001000110001 = .ok (.orVxVy 2 3) := by decide
theorem test_decode_andVxVy : decode 0b1000001000110010 = .ok (.andVxVy 2 3) := by decide
theorem test_decode_xorVxVy : decode 0b1000001000110011 = .ok (.xorVxVy 2 3) := by decide
theorem test_decode_addVxVy : decode 0b1000001000110100 = .ok (.addVxVy 2 3) := by decide
theorem test_decode_subVxVy : decode 0b1000001000110101 = .ok (.subVxVy 2 3) := by decide
theorem test_decode_shrVx : decode 0b1000010101100110 = .ok (.shrVx 5 6) := by decide
theorem test_decode_subnVxVy : decode 0b1000001000110111 = .ok (.subnVxVy 2 3) := by decide
theorem test_decode_shlVx : decode 0b1000010101101110 = .ok (.shlVx 5 6) := by decide
theorem test_decode_sneVxVy : decode 0b1001100001000000 = .ok (.sneVxVy 8 4) := by decide
theorem test_decode_ldIAddr : decode 0b1010001000101010 = .ok (.ldIAddr 0x22A) := by decide
theorem test_decode_jpV0Addr : decode 0b1011111111111111 = .ok (.jpV0Addr 0xFFF) := by decide
theorem test_decode_rndVxByte : decode 0b1100001100001111 = .ok (.rndVxByte 3 0x0F) := by decide
theorem test_decode_drwVxVyNibble : decode 0b1101000100101111 = .ok (.drwVxVyNibble 1 2 15) := by decide
theorem test_decode_skpVx : decode 0b1110000110011110 = .ok (.skpVx 1) := by decide
theorem test_decode_sknpVx : decode 0b1110101010100001 = .ok (.sknpVx 10) := by decide
theorem test_decode_ldVxDt : decode 0b1111010100000111 = .ok (.ldVxDt 5) := by decide
theorem test_decode_ldVxK : decode 0b1111001000001010 = .ok (.ldVxK 2) := by decide
theorem test_decode_ldDtVx : decode 0b1111000000010101 = .ok (.ldDtVx 0) := by decide
theorem test_decode_ldStVx : decode 0b1111001000011000 = .ok (.ldStVx 2) := by decide
theorem test_decode_addIVx : decode 0b1111000000011110 = .ok (.addIVx 0) := by decide
theorem test_decode_ldFVx : decode 0b1111111100101001 = .ok (.ldFVx 15) := by decide
theorem test_decode_ldBVx : decode 0b1111000000110011 = .ok (.ldBVx 0) := by decide
theorem test_decode_ldIndVx : decode 0b1111001101010101 = .ok (.ldIndVx 3) := by decide
theorem test_decode_ldVxInd : decode 0b1111001001100101 = .ok (.ldVxInd 2) := by decide
theorem test_decode_sysAddr : decode 0b0000000100100011 = .ok (.sysAddr 0x123) := by decide

/-- E-7, E-10: words of families 5, 8, 9, E and F that match no row. -/
theorem test_decode_unmapped :
    [0x5121, 0x8008, 0x800F, 0xE0FF, 0xF000, 0xF0FF, 0x9121].map decode =
      [0x5121, 0x8008, 0x800F, 0xE0FF, 0xF000, 0xF0FF, 0x9121].map fun w => .error (.unmapped w) := by decide

/-- L1-1: the fields of 0xD12F. -/
theorem test_fields :
    (fieldF 0xD12F, fieldX 0xD12F, fieldY 0xD12F, fieldN 0xD12F, fieldNN 0xD12F, fieldNNN 0xD12F) =
      (0xD, 1, 2, 0xF, 0x2F, 0x12F) := by decide

/-- R58: the byte at the lower address is the high one; a lone byte is no instruction (R89). -/
theorem test_decodeBytes :
    (decodeBytes [0xA2, 0x2A, 0x60]).toOption = some (.ldIAddr 0x22A, [0x60]) ∧ decodeBytes [0xA2] = .error .truncated := by decide

theorem test_decodeTableWord : decodeTableWord 16 0xD12F = some (.drwVxVyNibble 1 2 15) ∧ decodeTableWord 16 0x5121 = none := by decide

/-- R92: printed words. -/
theorem test_mnemonic :
    (mnemonic 0xD12F).1 = "DRW" ∧ (mnemonic 0xD12F).2.map Operand.spelling = ["V1", "V2", "0xF"] ∧
    (mnemonic 0x5121).1 = "UNMAPPED" ∧ (mnemonic 0x5121).2.map Operand.spelling = ["0x5121"] := by decide

/-! ### The engine step -/

/-- E-1. -/
theorem test_step_runs : (runWord 0x6005 start).map (fun t => (t.reg 0, t.pc, t.report)) = some (5, 0x202, [.ok]) := by decide
/-- E-2, E-3: an odd PC under the policy fault, checked before the range. -/
theorem test_step_odd_pc :
    ((runWord 0x6005 { start with pc := 0x201 }).map fun t => (t.pc, t.report)) =
      some (0x201, [.diag (.addressFault 0x201 .fetch)]) ∧
    ((runWord 0x6005 { start with pc := 0xFFF }).map fun t => (t.pc, t.report)) =
      some (0xFFF, [.diag (.addressFault 0xFFF .fetch)]) := by decide
/-- E-4, E-5: past the end of memory. -/
theorem test_step_past_memory :
    ((nextOf (step { permissive with pc := 0xFFF })).map fun t => (t.pc, t.report)) =
      some (0xFFF, [.diag (.addressFault 0x1000 .fetch)]) ∧
    ((nextOf (step { start with pc := 0x1000 })).map fun t => (t.pc, t.report)) =
      some (0x1000, [.diag (.addressFault 0x1000 .fetch)]) := by decide
/-- E-11: an odd PC under the policy fetch. -/
theorem test_step_odd_pc_fetch :
    ((runWord 0x6007 { permissive with pc := 0x201 }).map fun t => (t.reg 0, t.pc, t.report)) = some (7, 0x203, [.ok]) := by decide
/-- E-7: an unmapped word. -/
theorem test_step_unmapped :
    ((runWord 0x5121 start).map fun t => (t.pc, t.report)) = some (0x202, [.diag (.unmappedOpcode 0x5121)]) := by decide
/-- E-8: 0NNN. -/
theorem test_sysAddr :
    ((runWord 0x0123 start).map fun t => (t.pc, t.report)) = some (0x202, [.diag (.unmappedOpcode 0x0123)]) := by decide
/-- E-9: family 0 with X above 0 does not clear the display. -/
theorem test_sysAddr_not_cls :
    ((runWord 0x01E0 { start with disp := Display.setPixel start.disp 3 4 true }).map fun t =>
      (Display.pixel t.disp 3 4, t.report)) = some (true, [.diag (.unmappedOpcode 0x01E0)]) := by decide
/-- L-6: from power-up with nothing loaded, the first step reports the word 0x0000 whatever the board's configuration is. -/
theorem test_step_from_reset :
    ((nextOf (step State.reset)).map fun t => (t.pc, t.report, t.diagSeen)) =
      some (0x202, [.diag (.unmappedOpcode 0)], some (.unmappedOpcode 0)) := by decide
/-- The host's word runs as the first instruction after reset, whatever the board's configuration is. -/
theorem test_withFetchWord_from_reset : (runWord 0xA22A State.reset).map (fun t => (t.index, t.pc)) = some (0x22A, 0x202) := by decide

/-! ### Control flow -/

/-- CF-1, CF-6. -/
theorem test_callAddr :
    ((runWord 0x2400 start).map fun t => (t.stack[0], t.sp.val, t.pc)) = some (0x202, 1, 0x400) ∧
    ((runWord 0x2300 { start with pc := 0xFFE }).map fun t => (t.stack[0], t.sp.val, t.pc)) = some (0x1000, 1, 0x300) := by decide
/-- CF-4. -/
theorem test_callAddr_overflow :
    ((runWord 0x2500 { start with pc := 0x300, sp := 12 }).map fun t => (t.pc, t.sp.val, t.report)) =
      some (0x302, 12, [.diag (.stackOverflow 0x300)]) := by decide
/-- CF-2. -/
theorem test_ret :
    ((runWord 0x00EE { start with pc := 0x400, sp := 1, stack := start.stack.set 0 0x202 }).map fun t =>
      (t.sp.val, t.pc, t.stack[0])) = some (0, 0x202, 0x202) := by decide
/-- CF-3. -/
theorem test_ret_underflow :
    ((runWord 0x00EE { start with pc := 0x20E }).map fun t => (t.pc, t.sp.val, t.report)) =
      some (0x210, 0, [.diag (.stackUnderflow 0x20E)]) := by decide
/-- CF-5. -/
theorem test_jpAddr : (runWord 0x1345 start).map (fun t => (t.pc, t.report)) = some (0x345, [.ok]) := by decide
/-- CF-16. -/
theorem test_jpV0Addr : (runWord 0xBFFF (withRegs [(0, 0xFF)] start)).map (·.pc) = some 0x10FE := by decide
/-- CF-7, CF-8. -/
theorem test_seVxByte :
    (runWord 0x3005 (withRegs [(0, 5)] start)).map (·.pc) = some 0x204 ∧
    (runWord 0x3005 (withRegs [(0, 4)] start)).map (·.pc) = some 0x202 := by decide
/-- CF-9, CF-10. -/
theorem test_sneVxByte :
    (runWord 0x4005 (withRegs [(0, 4)] start)).map (·.pc) = some 0x204 ∧
    (runWord 0x4005 (withRegs [(0, 5)] start)).map (·.pc) = some 0x202 := by decide
/-- CF-11, CF-12. -/
theorem test_seVxVy :
    (runWord 0x5330 start).map (·.pc) = some 0x204 ∧
    (runWord 0x5120 (withRegs [(1, 7), (2, 8)] start)).map (·.pc) = some 0x202 := by decide
/-- CF-13, CF-14. -/
theorem test_sneVxVy :
    (runWord 0x9330 start).map (·.pc) = some 0x202 ∧
    (runWord 0x9120 (withRegs [(1, 7), (2, 8)] start)).map (·.pc) = some 0x204 := by decide

/-! ### Register arithmetic: the destination and VF -/

/-- V[x] and VF after one word. -/
def regAndFlag (w : Nat) (x : Reg) (rs : List (Reg × Byte)) : Option (Byte × Byte) :=
  (runWord w (withRegs rs start)).map fun t => (t.reg x, t.reg 15)

/-- A-1. -/
theorem test_ldVxByte : regAndFlag 0x6AFF 10 [] = some (0xFF, 0x55) := by decide
/-- A-2, A-3. -/
theorem test_addVxByte :
    regAndFlag 0x7001 0 [(0, 0xFF)] = some (0, 0x55) ∧ regAndFlag 0x7F05 15 [(15, 0x10)] = some (0x15, 0x15) := by decide
/-- A-4. -/
theorem test_ldVxVy : regAndFlag 0x8010 0 [(1, 6)] = some (6, 0x55) := by decide
/-- A-5. -/
theorem test_orVxVy : regAndFlag 0x8011 0 [(0, 0x0C), (1, 0x0A)] = some (0x0E, 0x55) := by decide
/-- A-6. -/
theorem test_andVxVy : regAndFlag 0x8012 0 [(0, 0x0C), (1, 0x0A)] = some (0x08, 0x55) := by decide
/-- A-7, A-35. -/
theorem test_xorVxVy :
    regAndFlag 0x8013 0 [(0, 0x0C), (1, 0x0A)] = some (0x06, 0x55) ∧ regAndFlag 0x8003 0 [(0, 0x55)] = some (0, 0x55) := by decide
/-- A-8, A-9, A-10. -/
theorem test_addVxVy :
    regAndFlag 0x8014 0 [(0, 0x80), (1, 0x80)] = some (0, 1) ∧ regAndFlag 0x8014 0 [(0, 0x7F), (1, 1)] = some (0x80, 0) ∧
    regAndFlag 0x8014 0 [(0, 0xFF), (1, 0xFF)] = some (0xFE, 1) := by decide
/-- A-11, A-12, A-13: VF as destination and as source. -/
theorem test_addVxVy_flag_operand :
    regAndFlag 0x8F14 15 [(15, 0xFF), (1, 1)] = some (1, 1) ∧ regAndFlag 0x8F14 15 [(15, 0x10), (1, 0x20)] = some (0, 0) ∧
    regAndFlag 0x80F4 0 [(0, 1), (15, 0xFF)] = some (0, 1) := by decide
/-- A-15, A-16, A-17. -/
theorem test_subVxVy :
    regAndFlag 0x8015 0 [(0, 0x42), (1, 0x42)] = some (0, 1) ∧ regAndFlag 0x8015 0 [(0, 0x10), (1, 1)] = some (0x0F, 1) ∧
    regAndFlag 0x8015 0 [(0, 0), (1, 1)] = some (0xFF, 0) := by decide
/-- A-18. -/
theorem test_subVxVy_flag_operand : regAndFlag 0x8F15 15 [(15, 5), (1, 3)] = some (1, 1) := by decide
/-- A-21, A-22: Y is ignored. -/
theorem test_shrVx :
    regAndFlag 0x8006 0 [(0, 0x80)] = some (0x40, 0) ∧ regAndFlag 0x8016 0 [(0, 0xFF), (1, 0)] = some (0x7F, 1) ∧
    regAndFlag 0x80F6 0 [(0, 0xFF)] = some (0x7F, 1) := by decide
/-- A-23, A-24. -/
theorem test_shrVx_flag_operand :
    regAndFlag 0x8F06 15 [(15, 3)] = some (1, 1) ∧ regAndFlag 0x8F06 15 [(15, 2)] = some (0, 0) := by decide
/-- A-25, A-26, A-27. -/
theorem test_subnVxVy :
    regAndFlag 0x8017 0 [(0, 1), (1, 2)] = some (1, 1) ∧ regAndFlag 0x8017 0 [(0, 2), (1, 1)] = some (0xFF, 0) ∧
    regAndFlag 0x8017 0 [(0, 0x33), (1, 0x33)] = some (0, 1) := by decide
/-- A-28, A-29, A-30. -/
theorem test_shlVx :
    regAndFlag 0x800E 0 [(0, 0x80)] = some (0, 1) ∧ regAndFlag 0x800E 0 [(0, 0x7F)] = some (0xFE, 0) ∧
    regAndFlag 0x800E 0 [(0, 0xFF)] = some (0xFE, 1) := by decide
/-- A-31. -/
theorem test_shlVx_flag_operand : regAndFlag 0x8F0E 15 [(15, 0x80)] = some (1, 1) := by decide
/-- A-32, A-33, A-34: the byte drawn is the vector's; the meaning applies the same function to a free byte. -/
theorem test_rndWith :
    (rndWith 0xB7 3 0x0F start).reg 3 = 0x07 ∧ (rndWith 0xB7 3 0x00 start).reg 3 = 0 ∧ (rndWith 0xB7 3 0xFF start).reg 3 = 0xB7 := by
  decide
/-- CXNN runs from reset, and counts its draw. -/
theorem test_rndVxByte : (runWord 0xC3FF State.reset).map (fun t => (t.draws, t.pc, t.report)) = some (1, 0x202, [.ok]) := by decide

/-! ### Index and memory -/

/-- The bytes from an address on. -/
def bytesAt (base n : Nat) (t : State) : List Byte := (List.range n).map fun k => t.byteAt (base + k)

/-- M-1. -/
theorem test_ldIAddr : (runWord 0xA123 start).map (·.index) = some 0x123 := by decide
/-- M-2, M-3. -/
theorem test_addIVx :
    ((runWord 0xF01E (withRegs [(0, 1)] { start with index := 0xFFF })).map fun t => (t.index, t.reg 15)) = some (0x1000, 0x55) ∧
    (runWord 0xF01E (withRegs [(0, 1)] { start with index := 0xFFFF })).map (·.index) = some 0 := by decide
/-- M-6, M-8: the full 8-bit VX. -/
theorem test_ldFVx :
    (runWord 0xF029 (withRegs [(0, 0x0F)] start)).map (·.index) = some 0x04B ∧
    (runWord 0xF029 (withRegs [(0, 0xFF)] start)).map (·.index) = some 0x4FB := by decide
/-- M-10, M-13. -/
theorem test_ldBVx :
    (runWord 0xF033 (withRegs [(0, 255)] { start with index := 0x300 })).map (bytesAt 0x300 3) = some [2, 5, 5] ∧
    (runWord 0xF033 (withRegs [(0, 123)] { start with index := 0xFFD })).map (bytesAt 0xFFD 3) = some [1, 2, 3] := by decide
/-- M-14, M-15, M-16. -/
theorem test_ldBVx_checks :
    ((runWord 0xF033 (withRegs [(0, 42)] { start with index := 0xFFE })).map fun t => (bytesAt 0xFFE 2 t, t.pc, t.report)) =
      some ([0, 0], 0x202, [.diag (.addressFault 0x1000 .write)]) ∧
    ((runWord 0xF033 (withRegs [(0, 42)] { start with index := 0x1FF })).map fun t => (bytesAt 0x1FF 3 t, t.report)) =
      some ([0, 0xF0, 0x33], [.diag (.addressFault 0x1FF .write)]) ∧
    ((runWord 0xF033 (withRegs [(0, 42)] { permissive with index := 0x1FF })).map fun t => (bytesAt 0x1FF 3 t, t.report)) =
      some ([0, 4, 2], [.ok]) := by decide
/-- M-17, M-18. -/
theorem test_ldIndVx :
    ((runWord 0xF255 (withRegs [(0, 1), (1, 2), (2, 3)] { start with index := 0x300 })).map fun t =>
      (bytesAt 0x300 4 t, t.index)) = some ([1, 2, 3, 0], 0x300) ∧
    ((runWord 0xF055 (withRegs [(0, 9), (1, 8)] { start with index := 0x300 })).map (bytesAt 0x300 2)) = some [9, 0] := by decide
/-- M-20, M-21. M-26: the next fetch reads what the store wrote. -/
theorem test_ldIndVx_checks :
    ((runWord 0xFF55 { start with index := 4090 }).map fun t => (bytesAt 4090 6 t, t.report)) =
      some ([0, 0, 0, 0, 0, 0], [.diag (.addressFault 4096 .write)]) ∧
    (runWord 0xFF55 { start with index := 0x1F8 }).map (·.report) = some [.diag (.addressFault 0x1F8 .write)] ∧
    ((runWord 0xF155 (withRegs [(0, 0x12), (1, 0x34)] { start with pc := 0x300, index := 0x302 })).bind fun t =>
      (fetch t).toOption) = some 0x1234 := by decide
/-- M-22, M-25. -/
theorem test_ldVxInd :
    ((runWord 0xF265 (withBytes 0x300 [2, 5, 4, 9] { start with index := 0x300 })).map fun t =>
      (t.reg 0, t.reg 1, t.reg 2, t.reg 3, t.index)) = some (2, 5, 4, 0, 0x300) ∧
    ((runWord 0xF465 start).map fun t => [t.reg 0, t.reg 1, t.reg 2, t.reg 3, t.reg 4]) = some [0xF0, 0x90, 0x90, 0x90, 0xF0] := by
  decide
/-- M-23, M-24. -/
theorem test_ldVxInd_all :
    ((runWord 0xFF65 { start with index := 0xFF1 }).map fun t => (t.reg 15, t.report)) =
      some (0x55, [.diag (.addressFault 0x1000 .read)]) ∧
    ((runWord 0xFF65 (withBytes 0x30F [0x77] { start with index := 0x300 })).map fun t => (t.reg 14, t.reg 15)) = some (0, 0x77) := by
  decide
/-! ### Display -/

/-- D-1. -/
theorem test_cls :
    ((runWord 0x00E0 { start with disp := Display.setPixel start.disp 63 31 true }).map fun t =>
      (Display.pixel t.disp 63 31, t.reg 15)) = some (false, 0x55) := by decide
/-- D-4, D-5: clipped at the right and at the bottom. D-6, D-10, D-12: the origin modulo the size, from the old VF; XOR and
collision. -/
theorem test_drw_pixels :
    ((runWord 0xD011 (withRegs [(0, 60)] (withBytes 0x300 [0xFF] { start with index := 0x300 }))).map fun t =>
      (onIn [0, 1, 2, 3, 4, 59, 60, 61, 62, 63] [0, 1] t.disp, t.reg 15)) = some ([(60, 0), (61, 0), (62, 0), (63, 0)], 0) ∧
    ((runWord 0xD014 (withRegs [(1, 30)] (withBytes 0x300 [0x80, 0x80, 0x80, 0x80] { start with index := 0x300 }))).map fun t =>
      (onIn [0, 1] [0, 1, 29, 30, 31] t.disp, t.reg 15)) = some ([(0, 30), (0, 31)], 0) ∧
    (runWord 0xD011 (withRegs [(0, 67), (1, 37)] (withBytes 0x300 [0x80] { start with index := 0x300 }))).map
      (fun t => onIn [2, 3, 4] [4, 5, 6] t.disp) = some [(3, 5)] ∧
    ((runWord 0xDF11 (withRegs [(15, 10), (1, 2)] (withBytes 0x300 [0x80] { start with index := 0x300 }))).map fun t =>
      (onIn [0, 1, 10] [0, 2] t.disp, t.reg 15)) = some ([(10, 2)], 0) ∧
    ((runWord 0xD011 (withBytes 0x300 [0xC0] { start with index := 0x300, disp := Display.setPixel start.disp 1 0 true })).map
      fun t => (onIn [0, 1, 2] [0] t.disp, t.reg 15)) = some ([(0, 0)], 1) := by decide
/-- D-7, D-8: no rows, and a sprite past the end of memory. D-13: the glyph of 0 from the font. -/
theorem test_drw_reads :
    ((runWord 0xD010 { start with index := 0xFFFF }).map fun t => (t.reg 15, t.report)) = some (0, [.ok]) ∧
    ((runWord 0xD013 { start with index := 0xFFE }).map fun t => (t.reg 15, t.pc, t.report)) =
      some (0x55, 0x202, [.diag (.addressFault 0x1000 .read)]) ∧
    (runWord 0xD005 start).map (fun t => (onIn [0, 1, 2, 3, 4] [0, 1, 4, 5] t.disp, t.reg 15)) =
      some ([(0, 0), (1, 0), (2, 0), (3, 0), (0, 1), (3, 1), (0, 4), (1, 4), (2, 4), (3, 4)], 0) := by decide

/-! ### Keypad and timers -/

def keyDown (k : Fin 16) (s : State) : State := { s with key := s.key.set k true }

/-- K-1, K-2. -/
theorem test_skpVx :
    (runWord 0xE19E (withRegs [(1, 10)] (keyDown 10 start))).map (·.pc) = some 0x204 ∧
    (runWord 0xE19E (withRegs [(1, 10)] start)).map (·.pc) = some 0x202 := by decide
/-- K-3, K-4. -/
theorem test_sknpVx :
    (runWord 0xE1A1 (withRegs [(1, 10)] start)).map (·.pc) = some 0x204 ∧
    (runWord 0xE1A1 (withRegs [(1, 10)] (keyDown 10 start))).map (·.pc) = some 0x202 := by decide
/-- K-5, K-6. -/
theorem test_key_index_fault :
    ((runWord 0xE19E (withRegs [(1, 0x10)] start)).map fun t => (t.pc, t.report)) =
      some (0x202, [.diag (.keyIndexFault 0x10)]) ∧
    ((runWord 0xE1A1 (withRegs [(1, 0xFF)] start)).map fun t => (t.pc, t.report)) =
      some (0x202, [.diag (.keyIndexFault 0xFF)]) := by decide
/-- K-7, K-9. -/
theorem test_ldVxK :
    ((runWord 0xF20A (keyDown 7 (keyDown 3 start))).map fun t => (t.reg 2, t.pc)) = some (3, 0x202) ∧
    ((runWord 0xFF0A (keyDown 15 start)).map fun t => (t.reg 15, t.pc)) = some (0x0F, 0x202) := by decide
/-- K-8. -/
theorem test_ldVxK_waits :
    ((runWord 0xF20A (withRegs [(2, 9)] start)).map fun t => (t.reg 2, t.pc, t.report)) = some (9, 0x200, [.ok]) := by decide
/-- K-10. -/
theorem test_ldVxDt : (runWord 0xF507 { start with dt := 0x3C }).map (fun t => (t.reg 5, t.dt)) = some (0x3C, 0x3C) := by decide
/-- K-11. -/
theorem test_ldDtVx : (runWord 0xF015 (withRegs [(0, 5)] start)).map (fun t => (t.dt, t.st)) = some (5, 0) := by decide
/-- K-12. -/
theorem test_ldStVx : (runWord 0xF218 (withRegs [(2, 2)] start)).map (fun t => (t.dt, t.st)) = some (0, 2) := by decide

/-! ### Commands -/

def afterCommand (c : Command) (s : State) : Option State := nextOf (command c s)

/-- T-1, T-2, T-3, L1-11. -/
theorem test_stepsPerTick :
    [600, 59, 119, 700].map (fun ips => (start.withIps ips).stepsPerTick) = [10, 0, 1, 11] := by decide
/-- T-2, T-4: with no step the timers still count down, and stop at 0. -/
theorem test_tick_timers :
    (afterCommand .tick ({ start with dt := 1, st := 2 }.withIps 59)).map (fun t => (t.dt, t.st, t.pc, t.report)) =
      some (0, 1, 0x200, []) ∧
    (afterCommand .tick (start.withIps 59)).map (fun t => (t.dt, t.st)) = some (0, 0) := by decide
/-- T-5: the sound is sampled after the batch. -/
theorem test_tick_sound :
    (afterCommand .tick ((withBytes 0x200 [0xF2, 0x18] (withRegs [(2, 1)] start)).withIps 60)).map (fun t => (t.st, t.soundOn)) =
      some (1, true) := by decide
/-- T-6: decremented before the batch, so silent. -/
theorem test_tick_silence :
    (afterCommand .tick { start with st := 1, soundOn := true, config := { testConfig with ips := 0 } }).map
      (fun t => (t.st, t.soundOn)) = some (0, false) := by decide
/-- T-7: a diagnostic inside the batch does not stop it. -/
theorem test_tick_reports :
    (afterCommand .tick (withBytes 0x200 [0x60, 0x05, 0x51, 0x21, 0x61, 0x06] start)).map (fun t => (t.reg 1, t.pc, t.report)) =
      some (6, 0x206, [.ok, .diag (.unmappedOpcode 0x5121), .ok]) := by decide
/-- L-3: the bytes of an earlier program are gone. -/
theorem test_load :
    ((afterCommand (.load [0x12, 0x00]) (loadCommand [1, 2, 3, 4, 5] { start with pc := 0x300, dt := 7 })).map fun t =>
      (bytesAt 0x200 5 t, t.pc, t.dt, t.report, t.romImage)) = some ([0x12, 0, 0, 0, 0], 0x200, 0, [.ok], [0x12, 0]) := by decide
/-- L-4: RESET writes the program again and restores the registers. -/
theorem test_reset :
    ((afterCommand .reset (withBytes 0x200 [9, 9] (loadCommand [1, 2] { start with index := 5 }))).map fun t =>
      (bytesAt 0x200 3 t, t.reg 15, t.report, t.romImage)) = some ([1, 2, 0], 0, [], [1, 2]) := by decide
/-- L-1. -/
theorem test_load_too_large : (loadCommand (List.replicate 3585 0) start).report = [.diag (.loadTooLarge 3585)] := by
  have h : maxProg < (List.replicate 3585 (0 : Byte)).length := by rw [List.length_replicate]; decide
  rw [loadCommand, if_pos h, List.length_replicate]
  rfl
/-- R45, D23. -/
theorem test_setKey :
    (afterCommand (.setKey 15 true) start).map (fun t => t.key[15]) = some true ∧
    (afterCommand (.setKey 16 true) start).map (·.key) = some start.key := by decide
/-- L-5: power-up memory under the font G1. -/
theorem test_powerUp_memory : bytesAt 0x4B 7 start = [0xF0, 0x80, 0xF0, 0x80, 0x80, 0, 0] := by decide
/-- R31: the snapshot is row-major. -/
theorem test_framebuffer :
    (framebuffer { start with disp := Display.setPixel start.disp 3 1 true })[67]? = some true := by decide
/-- R231: the codes. -/
theorem test_status_codes :
    [Status.ok, .diag (.unmappedOpcode 0), .diag (.stackOverflow 0), .diag (.stackUnderflow 0), .diag (.addressFault 0 .read),
      .diag (.keyIndexFault 0), .diag (.loadTooLarge 0)].map Status.code = [0, 1, 2, 3, 4, 5, 6] := by decide

/-! ### Witnesses: for each statement with hypotheses, a state and operands that meet them, at the boundary of each clause -/

/-- A state whose next two bytes are the word's. -/
def holding (hi lo : Byte) (s : State) : State := withBytes s.pc.toNat [hi, lo] s

theorem start_inv : start.Inv := ⟨by decide, by decide, by decide⟩
theorem permissive_inv : permissive.Inv := ⟨by decide, by decide, by decide⟩

theorem witness_DecodeReadsEncodedInstruction :
    (Instr.sysAddr 0x0E1).wellFormed = true ∧ (Instr.drwVxVyNibble 15 15 15).wellFormed = true := by decide
theorem witness_EncodeGivesDecodedWord : decode 0x0FFF = .ok (.sysAddr 0xFFF) ∧ decode 0xFF65 = .ok (.ldVxInd 15) := by decide
/-- The three cases of a word: a row of R84, no row, and row 35. -/
theorem witness_DecodeFollowsOpcodeMap :
    decode 0x8FFE = .ok (.shlVx 15 15) ∧ decode 0x8FFF = .error (.unmapped 0x8FFF) ∧ decode 0x00E1 = .ok (.sysAddr 0x0E1) := by
  decide
/-- The first and the last row, with the word at each end of its operand's range, and a word of no row. -/
theorem witness_MnemonicAgreesWithDispatch :
    (∀ p ∈ printedRows.head?, 0x00E0 &&& p.row.mask = p.row.bits ∧ mnemonic 0x00E0 = ("CLS", [])) ∧
    (∀ p ∈ printedRows.getLast?, 0xF065 &&& p.row.mask = p.row.bits ∧ 0xFF65 &&& p.row.mask = p.row.bits ∧
      mnemonic 0xFF65 = ("LD", [.reg 15, .indirect])) ∧
    (mnemonic 0x00E1).1 = "UNMAPPED" := by decide
/-- The last PC that may be fetched from, and an odd one under the policy fetch. -/
theorem witness_StepRunsDecodedInstruction :
    ((∀ s, s = holding 0x12 0x00 { start with pc := 0xFFE } → s.pc.toNat + 1 < 4096 ∧ s.pc.toNat % 2 = 0 ∧
      (0x1200 : Word).toNat = 256 * (s.byteAt s.pc.toNat).toNat + (s.byteAt (s.pc.toNat + 1)).toNat) ∧
    (∀ s, s = holding 0x12 0x00 { permissive with pc := 0xFFD } → s.pc.toNat + 1 < 4096 ∧ s.config.oddPc = .fetch ∧
      (0x1200 : Word).toNat = 256 * (s.byteAt s.pc.toNat).toNat + (s.byteAt (s.pc.toNat + 1)).toNat)) ∧
    decode 0x1200 = .ok (.jpAddr 0x200) := by
  refine ⟨⟨?_, ?_⟩, by decide⟩ <;> (rintro _ rfl; decide)
/-- Odd under the policy fault; past memory at an even PC, and at 0xFFF under the policy fetch. -/
theorem witness_FetchFaultChangesNothing :
    (∀ s, s = { start with pc := 0xFFF } → s.pc.toNat % 2 = 1 ∧ s.config.oddPc = .fault) ∧
    (∀ s, s = { start with pc := 0x1000 } → ¬ (s.pc.toNat % 2 = 1 ∧ s.config.oddPc = .fault) ∧ 4096 ≤ s.pc.toNat + 1) ∧
    (∀ s, s = { permissive with pc := 0xFFF } → ¬ (s.pc.toNat % 2 = 1 ∧ s.config.oddPc = .fault) ∧ 4096 ≤ s.pc.toNat + 1) := by
  refine ⟨?_, ?_, ?_⟩ <;> (rintro _ rfl; decide)
theorem witness_UnmappedWordOnlyAdvances :
    (fetch (holding 0x51 0x21 start) = .ok 0x5121 ∧ decode 0x5121 = .error (.unmapped 0x5121)) ∧
    fetch (holding 0x00 0xE1 start) = .ok 0x00E1 ∧ decode 0x00E1 = .ok (.sysAddr 0x0E1) := by decide
/-- Both kinds of report. -/
theorem witness_StepReportsOneStatus :
    (∃ t, step (holding 0x60 0x05 start) = .next t ∧ t.report = [.ok]) ∧
    ∃ t, step (holding 0x51 0x21 start) = .next t ∧ t.report = [.diag (.unmappedOpcode 0x5121)] :=
  ⟨⟨_, rfl, rfl⟩, ⟨_, rfl, rfl⟩⟩
theorem witness_RaisingInstructionWritesNothing :
    ∃ t, exec .ret start = .next t ∧ t.report = [.diag (.stackUnderflow 0x1FE)] := ⟨_, rfl, by decide⟩
/-- An instruction that writes two registers, and one of the others. -/
theorem witness_RegistersHaveTheirWriters :
    (∃ t, exec (.addVxVy 0 1) start = .next t) ∧ (2 : Reg) ∉ mayWriteRegs (.addVxVy 0 1) ∧ (0 : Reg) ∈ mayWriteRegs (.addVxVy 0 1) :=
  ⟨⟨_, rfl⟩, by decide⟩
theorem witness_EachPieceOfStateHasItsWriters :
    (∃ t, exec (.ldBVx 0) start = .next t) ∧ Part.keys ∉ mayWriteParts (.ldBVx 0) ∧ Part.memory ∈ mayWriteParts (.ldBVx 0) :=
  ⟨⟨_, rfl⟩, by decide⟩
theorem witness_SoundTimerAndImageAreReadByNoInstruction :
    (∃ t, exec (.ldVxDt 0) start = .next t) ∧ ∃ t, exec (.ldStVx 0) start = .next t := ⟨⟨_, rfl⟩, ⟨_, rfl⟩⟩
/-- The stale slots of an empty stack, and the one a CALL at depth 11 writes. -/
theorem witness_StaleStackSlotsAreReadByNoInstruction :
    (start.sp.val ≤ 0 ∧ ∃ t, exec .ret start = .next t) ∧
    (({ start with sp := 11 } : State).sp.val ≤ 11 ∧ ∃ t, exec (.callAddr 0) { start with sp := 11 } = .next t) :=
  ⟨⟨by decide, _, rfl⟩, ⟨by decide, _, rfl⟩⟩
/-- A stack of one, of twelve, and an empty one. -/
theorem witness_RetPopsReturnAddress :
    0 < ({ start with sp := 1 } : State).sp.val ∧ 0 < ({ start with sp := 12 } : State).sp.val ∧ start.sp.val = 0 := by decide
theorem witness_CallPushesReturnAddress :
    start.sp.val < 12 ∧ ({ start with sp := 11 } : State).sp.val < 12 ∧ ({ start with sp := 12 } : State).sp.val = 12 := by decide
theorem witness_CallThenRetReturns : ({ start with sp := 11 } : State).sp.val < 12 := by decide
theorem witness_SkipsCompareRegisters : (1 : Nibble) ≠ 0 ∧ (15 : Nibble) ≠ 0 := by decide
/-- The destinations 14 and 15 on both sides of the clause, of the three flag statements. -/
theorem witness_AddWritesSumAndCarry : (14 : Reg) ≠ 15 ∧ ¬ (15 : Reg) ≠ 15 := by decide
theorem witness_SubtractionsWriteDifferenceAndNoBorrow : (0 : Reg) ≠ 15 ∧ (14 : Reg) ≠ 15 := by decide
theorem witness_ShiftsMoveVxAndItsEdgeBit : (0 : Reg) ≠ 15 ∧ (14 : Reg) ≠ 15 := by decide
/-- The highest and the lowest base under the policy fault, the lowest under allow. -/
theorem witness_DecimalStoreWritesThreeDigits :
    (∀ s, s = { start with index := 0xFFD } ∨ s = { start with index := 0x200 } →
      s.Inv ∧ s.index.toNat + 3 ≤ 4096 ∧ 0x1FF < s.index.toNat) ∧
    ∀ s, s = { permissive with index := 0 } → s.Inv ∧ s.index.toNat + 3 ≤ 4096 ∧ s.config.glyphStore = .allow := by
  constructor
  · rintro _ (rfl | rfl) <;> exact ⟨⟨by decide, by decide, by decide⟩, by decide⟩
  · rintro _ rfl
    exact ⟨⟨by decide, by decide, by decide⟩, by decide⟩
theorem witness_RegisterStoreWritesV0ToVx :
    (∀ s, s = { start with index := 0xFF0 } → s.Inv ∧ s.index.toNat + (15 : Reg).val + 1 ≤ 4096 ∧ 0x1FF < s.index.toNat) ∧
    ∀ s, s = { permissive with index := 0 } → s.Inv ∧ s.index.toNat + (0 : Reg).val + 1 ≤ 4096 ∧ s.config.glyphStore = .allow := by
  constructor <;> (rintro _ rfl; exact ⟨⟨by decide, by decide, by decide⟩, by decide⟩)
/-- Just past the end, and the last byte of the glyph region. -/
theorem witness_BadStoresRaiseAndStoreNothing :
    (∀ s, s = { start with index := 0xFFE } → 4096 < s.index.toNat + 3) ∧
    (∀ s, s = { start with index := 0xFF1 } → 4096 < s.index.toNat + (15 : Reg).val + 1) ∧
    ∀ s, s = { start with index := 0x1FF } → s.index.toNat ≤ 0x1FF ∧ s.config.glyphStore = .fault := by
  refine ⟨?_, ?_, ?_⟩ <;> (rintro _ rfl; decide)
theorem witness_RegisterLoadReadsV0ToVx :
    (∀ s, s = { start with index := 0xFF0 } → s.index.toNat + (15 : Reg).val + 1 ≤ 4096) ∧
    ∀ s, s = { start with index := 0xFF1 } → 4096 < s.index.toNat + (15 : Reg).val + 1 := by
  constructor <;> (rintro _ rfl; decide)
theorem witness_StoreIsSeenByTheNextFetch :
    ∀ s, s = { start with pc := 0x302, index := 0x302 } →
      s.Inv ∧ (∃ t, exec (.ldIndVx 1) s = .next t ∧ t.report = [.ok]) ∧ s.pc.toNat + 1 < 4096 ∧ s.pc.toNat % 2 = 0 ∧
      s.pc.toNat = s.index.toNat + (0 : Reg).val ∧ (1 : Reg).val = (0 : Reg).val + 1 ∧ (1 : Reg) ≤ 1 := by
  rintro _ rfl
  exact ⟨⟨by decide, by decide, by decide⟩, ⟨_, rfl, by decide⟩, by decide⟩
/-- The last sprite that fits, and no rows with I anywhere. -/
theorem witness_DrawXorsSpriteAndFlagsCollision :
    (∀ s, s = { start with index := 0xFF1 } → s.index.toNat + (15 : Nibble).toNat ≤ 4096) ∧ (0 : Nibble) = 0 := by
  refine ⟨?_, rfl⟩
  rintro _ rfl
  decide
/-- A draw that collides, and pixels on each side of its sprite. -/
theorem witness_DrawClipsAndNeverWraps :
    ∀ s, s = withRegs [(0, 60), (1, 31)] (withBytes 0x300 [0xFF] { start with index := 0x300, disp := Display.setPixel start.disp 63 31 true }) →
      (∃ t, exec (.drwVxVyNibble 0 1 1) s = .next t ∧ t.report = [.ok] ∧ (t.reg 15).toNat ≠ 0) ∧
      59 < (s.reg 0).toNat % 64 ∧ (s.reg 0).toNat % 64 + 8 ≤ 68 ∧ 30 < (s.reg 1).toNat % 32 := by
  rintro _ rfl
  exact ⟨⟨_, rfl, by decide⟩, by decide⟩
theorem witness_DrawPastMemoryRaises :
    ∀ s, s = { start with index := 0xFFF } → (2 : Nibble) ≠ 0 ∧ 4096 < s.index.toNat + (2 : Nibble).toNat := by
  rintro _ rfl
  decide
/-- Origin registers the draw does not write, and VF itself as an origin register whose value stays the same modulo 64. -/
theorem witness_DrawingTwiceRestoresTheDisplay :
    (∃ t, exec (.drwVxVyNibble 0 1 5) start = .next t ∧ t.report = [.ok] ∧
      (t.reg 0).toNat % 64 = (start.reg 0).toNat % 64 ∧ (t.reg 1).toNat % 32 = (start.reg 1).toNat % 32) ∧
    ∀ s, s = withRegs [(15, 64)] start → ∃ t, exec (.drwVxVyNibble 15 1 5) s = .next t ∧ t.report = [.ok] ∧
      (t.reg 15).toNat % 64 = (s.reg 15).toNat % 64 ∧ (t.reg 1).toNat % 32 = (s.reg 1).toNat % 32 := by
  refine ⟨⟨_, rfl, by decide⟩, ?_⟩
  rintro _ rfl
  exact ⟨_, rfl, by decide⟩
/-- VX = 15 names the last latch, VX = 16 none. -/
theorem witness_KeySkipsReadTheLatch :
    ((withRegs [(1, 15)] start).reg 1).toNat = (15 : Fin 16).val ∧ 15 < ((withRegs [(1, 16)] start).reg 1).toNat := by decide
/-- The highest key alone, and no key. -/
theorem witness_KeyWaitTakesLowestKeyOrRewinds :
    (∀ s, s = keyDown 15 start → s.key[(15 : Fin 16)] = true ∧ ∀ j : Fin 16, j < 15 → s.key[j] = false) ∧
    ∀ j : Fin 16, start.key[j] = false := by
  refine ⟨?_, by decide⟩
  rintro _ rfl
  decide
theorem witness_KeyWaitStepStaysInPlace :
    fetch (holding 0xF2 0x0A start) = .ok 0xF20A ∧ decode 0xF20A = .ok (.ldVxK 2) ∧
    ∀ j : Fin 16, (holding 0xF2 0x0A start).key[j] = false := by decide
theorem witness_TickDecrementsThenRunsTheBatch :
    ({ start with dt := 1, st := 0 } : State).decrementTimers = { start with dt := 0, st := 0 } ∧ start.config.ips / 60 = 3 := by
  decide
theorem witness_ResetRestoresEveryPieceOfState : ∃ s : State, s.romImage.length = 3584 :=
  ⟨{ start with romImage := List.replicate 3584 0 }, List.length_replicate⟩
/-- The longest program that fits, and the shortest that does not. -/
theorem witness_LoadWritesProgramOrRejectsWhole :
    (List.replicate 3584 (0 : Byte)).length ≤ 3584 ∧ 3584 < (List.replicate 3585 (0 : Byte)).length := by
  rw [List.length_replicate, List.length_replicate]
  decide
theorem witness_StepKeepsInvariant : start.Inv ∧ ∃ t, step start = .next t := ⟨start_inv, _, rfl⟩
/-- A reachable state beyond power-up. -/
theorem witness_ReachableStatesMeetInvariant : Reachable (loadCommand [0x12, 0x00] State.reset) :=
  .command (.load [0x12, 0x00]) (.powerUp Config.board) rfl
theorem witness_GlyphRegionIsNeverOverwritten :
    ∃ s, Reachable s ∧ s.config.glyphStore = .fault ∧ s.pc = 0x202 :=
  ⟨_, .command .step (.powerUp testConfig) rfl, by decide⟩
theorem witness_ConfigurationIsConstant : ∃ t, command .tick (start.withIps 59) = .next t := ⟨_, rfl⟩
/-- A diagnostic that is the first, and one that is not. -/
theorem witness_RecordHoldsTheFirstDiagnostic :
    ∀ s, s = { start with pc := 0x201 } ∨ s = { start with pc := 0x201, diagSeen := some (.unmappedOpcode 0) } →
      ∃ t, command .step s = .next t ∧ t.report = [.diag (.addressFault 0x201 .fetch)] := by
  rintro _ (rfl | rfl) <;> exact ⟨_, rfl, by decide⟩
theorem witness_CommandsKeepInvariant :
    start.Inv ∧ (∃ t, command .tick (start.withIps 59) = .next t) ∧ ∃ t, command (.load [0x12, 0x00]) start = .next t :=
  ⟨start_inv, ⟨_, rfl⟩, ⟨_, rfl⟩⟩
theorem witness_EqualReadsMeanEqualMemories :
    start.Inv ∧ permissive.Inv ∧ ({ start with pc := 0 } : State).config = start.config := ⟨start_inv, permissive_inv, rfl⟩

end Sys2Proof.Tests
end

/-! ### Every step and every command answers a next state (spec 10_state.md R41) -/

namespace Sys2Proof.Machine

/-- `conclude` always answers: the state with the writes made, or the old state with the diagnostic (R105, R107). -/
theorem conclude_completes_or_raises (s : State) (r : Except Diagnostic State) :
    (∃ t : State, conclude s r = .next t.complete) ∨ ∃ d, conclude s r = .next (s.raise d) :=
  match r with
  | .ok t => .inl ⟨t, conclude_ok rfl⟩
  | .error d => .inr ⟨d, conclude_error rfl⟩

/-- Everything an instruction can do: it completes with some state, or it raises a diagnostic on the state it was given
(R105, R107). The instructions are grouped by how their arm ends: with `conclude`, with `unmapped`, or with `finish`. -/
theorem exec_completes_or_raises (i : Instr) (s : State) :
    (∃ t : State, exec i s = .next t.complete) ∨ ∃ d, exec i s = .next (s.raise d) := by
  cases i with
  | ret | callAddr | drwVxVyNibble | skpVx | sknpVx | ldBVx | ldIndVx | ldVxInd =>
    exact conclude_completes_or_raises s _
  | sysAddr nnn => exact .inr ⟨.unmappedOpcode (encode (.sysAddr nnn)), rfl⟩
  | cls | jpAddr | seVxByte | sneVxByte | seVxVy | sneVxVy | jpV0Addr | ldVxByte | addVxByte | ldVxVy | orVxVy | andVxVy
  | xorVxVy | addVxVy | subVxVy | shrVx | subnVxVy | shlVx | rndVxByte | ldIAddr | addIVx | ldFVx | ldVxDt | ldVxK | ldDtVx
  | ldStVx => exact .inl ⟨_, rfl⟩

/-- Everything a step can do: a fetch fault, an unmapped word, or the instruction of the word (R100, R101, R106). -/
theorem step_cases (s : State) :
    (∃ d, fetch s = .error d ∧ step s = .next (s.raise d)) ∨
    (∃ w e, fetch s = .ok w ∧ decode w = .error e ∧ step s = .next (s.advance.raise (.unmappedOpcode w))) ∨
    (∃ w i, fetch s = .ok w ∧ decode w = .ok i ∧ step s = exec i s.advance) := by
  cases hf : fetch s with
  | error d => exact .inl ⟨d, rfl, by simp only [step, hf]⟩
  | ok w =>
    cases hd : decode w with
    | error e => exact .inr (.inl ⟨w, e, rfl, hd, by simp only [step, hf, hd, unmapped]⟩)
    | ok i => exact .inr (.inr ⟨w, i, rfl, hd, by simp only [step, hf, hd]⟩)

/-- Every step completes with some state, or raises a diagnostic on the state before or after the fetch advance. -/
theorem step_completes_or_raises (s : State) :
    (∃ t : State, step s = .next t.complete) ∨ ∃ d, step s = .next (s.raise d) ∨ step s = .next (s.advance.raise d) := by
  obtain ⟨d, -, hs⟩ | ⟨w, -, -, -, hs⟩ | ⟨_, i, -, -, hs⟩ := step_cases s
  · exact .inr ⟨d, .inl hs⟩
  · exact .inr ⟨_, .inr hs⟩
  · rw [hs]
    exact (exec_completes_or_raises i s.advance).imp_right fun ⟨d, hd⟩ => ⟨d, .inr hd⟩

theorem step_answers (s : State) : ∃ t, step s = .next t := by
  obtain ⟨t, ht⟩ | ⟨d, hd | hd⟩ := step_completes_or_raises s
  · exact ⟨t.complete, ht⟩
  · exact ⟨s.raise d, hd⟩
  · exact ⟨s.advance.raise d, hd⟩

/-- One more step of a batch, in front (R236): its statuses come first. -/
theorem batch_succ {n : Nat} {s t u : State} (ht : step s = .next t) (hu : batch n t = .next u) :
    batch (n + 1) s = .next { u with report := t.report ++ u.report } := by
  simp only [batch, ht, hu]

/-- A diagnostic does not stop a batch (R236). -/
theorem batch_answers (n : Nat) (s : State) : ∃ t, batch n s = .next t := by
  induction n generalizing s with
  | zero => exact ⟨_, rfl⟩
  | succ n ih =>
    obtain ⟨t, ht⟩ := step_answers s
    obtain ⟨u, hu⟩ := ih t
    exact ⟨_, batch_succ ht hu⟩

/-- A tick whose batch answers ends in the sound sample (R250). -/
theorem tick_of_batch {s t : State} (h : batch s.stepsPerTick s.decrementTimers = .next t) :
    tick s = .next t.sampleSound := by
  simp only [tick, h]

theorem tick_answers (s : State) : ∃ t, tick s = .next t := by
  obtain ⟨t, ht⟩ := batch_answers s.stepsPerTick s.decrementTimers
  exact ⟨t.sampleSound, tick_of_batch ht⟩

theorem command_answers (c : Command) (s : State) : ∃ t, command c s = .next t := by
  cases c with
  | reset => exact ⟨resetCommand s, rfl⟩
  | step => exact step_answers s
  | tick => exact tick_answers s
  | load bytes => exact ⟨loadCommand bytes s, rfl⟩
  | setKey k pressed => exact ⟨setKeyCommand k pressed s, rfl⟩

/-- Settles O10: every instruction completes or raises on the state it was given, so every step answers, and so does every
batch by induction on its number of steps. -/
theorem noDiagnosticHaltsTheBlock : Obligations.NoDiagnosticHaltsTheBlock := ⟨step_answers, command_answers⟩

end Sys2Proof.Machine

/-! ### The decoder follows the rows of the opcode map (spec 30_encoding.md R83, R84, R90) -/

namespace Sys2Proof

/-- `w` passes the row's test (R84). -/
def OpcodeRow.Matches (r : OpcodeRow) (w : Word) : Prop := w &&& r.mask = r.bits

/-- A row keyed on the family selector alone (R83). -/
def familyRow (f : BitVec 4) : OpcodeRow := ⟨f ++ 0#12, 0xF000#16⟩

/-- A row keyed on the family selector and N (R83). -/
def nibbleRow (f : BitVec 4) (n : Nibble) : OpcodeRow := ⟨f ++ 0#8 ++ n, 0xF00F#16⟩

/-- A row keyed on the family selector and NN (R83). -/
def byteRow (f : BitVec 4) (nn : Byte) : OpcodeRow := ⟨f ++ 0#4 ++ nn, 0xF0FF#16⟩

/-- A row keyed on the whole word (R83). -/
def wordRow (v : Word) : OpcodeRow := ⟨v, BitVec.allOnes 16⟩

theorem append_eq_append_iff {m n : Nat} {a c : BitVec m} {b d : BitVec n} : a ++ b = c ++ d ↔ a = c ∧ b = d := by
  refine ⟨fun h => ⟨?_, ?_⟩, fun ⟨ha, hb⟩ => ha ▸ hb ▸ rfl⟩
  · simpa only [BitVec.extractLsb'_append_eq_left] using congrArg (·.extractLsb' n m) h
  · simpa only [BitVec.extractLsb'_append_eq_right] using congrArg (·.extractLsb' 0 n) h

theorem familyRow_matches {f : BitVec 4} {w : Word} : (familyRow f).Matches w ↔ fieldF w = f := by
  simp only [OpcodeRow.Matches, familyRow, mask_F000]
  exact BitVec.append_left_inj _

theorem nibbleRow_matches {f : BitVec 4} {n : Nibble} {w : Word} :
    (nibbleRow f n).Matches w ↔ fieldF w = f ∧ fieldN w = n := by
  simp only [OpcodeRow.Matches, nibbleRow, mask_F00F]
  exact append_eq_append_iff.trans (and_congr_left' (BitVec.append_left_inj _))

theorem byteRow_matches {f : BitVec 4} {nn : Byte} {w : Word} :
    (byteRow f nn).Matches w ↔ fieldF w = f ∧ fieldNN w = nn := by
  simp only [OpcodeRow.Matches, byteRow, mask_F0FF]
  exact append_eq_append_iff.trans (and_congr_left' (BitVec.append_left_inj _))

theorem wordRow_matches {v w : Word} : (wordRow v).Matches w ↔ w = v := by
  simp only [OpcodeRow.Matches, wordRow, BitVec.and_allOnes]

/-- The keys of the 34 rows: the whole word in family 0, N in families 5, 8 and 9, NN in families E and F, and the family
selector alone in the others (R83, R84). -/
theorem opcodeMap_subset_keyed : opcodeMap ⊆
    [0x00E0#16, 0x00EE#16].map wordRow
    ++ [0x1#4, 0x2#4, 0x3#4, 0x4#4, 0x6#4, 0x7#4, 0xA#4, 0xB#4, 0xC#4, 0xD#4].map familyRow
    ++ [0x5#4, 0x9#4].map (nibbleRow · 0#4)
    ++ [0x0#4, 0x1#4, 0x2#4, 0x3#4, 0x4#4, 0x5#4, 0x6#4, 0x7#4, 0xE#4].map (nibbleRow 0x8#4)
    ++ [0x9E#8, 0xA1#8].map (byteRow 0xE#4)
    ++ [0x07#8, 0x0A#8, 0x15#8, 0x18#8, 0x1E#8, 0x29#8, 0x33#8, 0x55#8, 0x65#8].map (byteRow 0xF#4) := by
  decide

/-- Row 35 (0NNN) is the only row of the opcode table that is not a row of R84. -/
theorem opcodeRow_mem_or_sysAddr (i : Instr) : i.opcodeRow ∈ opcodeMap ∨ ∃ nnn, i = .sysAddr nnn := by
  cases i with
  | sysAddr nnn => exact .inr ⟨nnn, rfl⟩
  | _ => exact .inl (by simp only [Instr.opcodeRow]; decide)

theorem sysAddr_opcodeRow_not_mem (nnn : Addr) : (Instr.sysAddr nnn).opcodeRow ∉ opcodeMap := by
  simp only [Instr.opcodeRow]
  decide

/-- A word that passes a row's test decodes to an instruction of that row: its key fixes every branch of the decoder. -/
theorem decode_of_row_matches {r : OpcodeRow} {w : Word} (hr : r ∈ opcodeMap) (hw : r.Matches w) :
    ∃ i, decode w = .ok i ∧ i.opcodeRow = r := by
  have hkey := opcodeMap_subset_keyed hr
  simp only [List.mem_append, List.mem_map, or_assoc] at hkey
  obtain ⟨v, hv, rfl⟩ | ⟨f, hf, rfl⟩ | ⟨f, hf, rfl⟩ | ⟨n, hn, rfl⟩ | ⟨nn, hnn, rfl⟩ | ⟨nn, hnn, rfl⟩ := hkey
  · obtain rfl := wordRow_matches.mp hw
    fin_cases hv <;> exact ⟨_, rfl, rfl⟩
  · have hF := familyRow_matches.mp hw
    fin_cases hf <;> (simp only [decode, hF]; exact ⟨_, rfl, rfl⟩)
  · obtain ⟨hF, hN⟩ := nibbleRow_matches.mp hw
    fin_cases hf <;> (simp only [decode, hF, hN]; exact ⟨_, rfl, rfl⟩)
  · obtain ⟨hF, hN⟩ := nibbleRow_matches.mp hw
    fin_cases hn <;> (simp only [decode, hF, decodeFamily8, hN]; exact ⟨_, rfl, rfl⟩)
  · obtain ⟨hF, hNN⟩ := byteRow_matches.mp hw
    fin_cases hnn <;> (simp only [decode, hF, decodeFamilyE, hNN]; exact ⟨_, rfl, rfl⟩)
  · obtain ⟨hF, hNN⟩ := byteRow_matches.mp hw
    fin_cases hnn <;> (simp only [decode, hF, decodeFamilyF, hNN]; exact ⟨_, rfl, rfl⟩)

/-- What the decoder may answer for `w`: an instruction whose row `w` matches, or `w` as unmapped (R86, R90). -/
def AnswerFits (w : Word) : Except Reject Instr → Prop
  | .ok i => i.opcodeRow.Matches w
  | .error e => e = .unmapped w

theorem decodeFamily0_fits {w : Word} (hF : fieldF w = 0x0#4) : AnswerFits w (decodeFamily0 w) := by
  unfold decodeFamily0
  split
  case isTrue h => exact wordRow_matches.mpr h
  case isFalse =>
    split
    case isTrue h => exact wordRow_matches.mpr h
    case isFalse => exact familyRow_matches.mpr hF

theorem decodeFamily8_fits {w : Word} (hF : fieldF w = 0x8#4) : AnswerFits w (decodeFamily8 w) := by
  unfold decodeFamily8
  split
  case h_10 => rfl
  all_goals exact nibbleRow_matches.mpr ⟨hF, ‹_›⟩

theorem decodeFamilyE_fits {w : Word} (hF : fieldF w = 0xE#4) : AnswerFits w (decodeFamilyE w) := by
  unfold decodeFamilyE
  split
  case h_3 => rfl
  all_goals exact byteRow_matches.mpr ⟨hF, ‹_›⟩

theorem decodeFamilyF_fits {w : Word} (hF : fieldF w = 0xF#4) : AnswerFits w (decodeFamilyF w) := by
  unfold decodeFamilyF
  split
  case h_10 => rfl
  all_goals exact byteRow_matches.mpr ⟨hF, ‹_›⟩

/-- Families 5 and 9: one row, keyed on N = 0 (R83). -/
theorem ite_fieldN_fits {w : Word} {i : Instr} {f : BitVec 4} (hi : i.opcodeRow = nibbleRow f 0#4) (hF : fieldF w = f) :
    AnswerFits w (if fieldN w = 0#4 then .ok i else .error (.unmapped w)) := by
  split
  case isTrue hN => exact (congrArg (OpcodeRow.Matches · w) hi).mpr (nibbleRow_matches.mpr ⟨hF, hN⟩)
  case isFalse => rfl

theorem decode_fits (w : Word) : AnswerFits w (decode w) := by
  unfold decode
  split
  case h_1 hF => exact decodeFamily0_fits hF
  case h_6 hF => exact ite_fieldN_fits rfl hF
  case h_9 hF => exact decodeFamily8_fits hF
  case h_10 hF => exact ite_fieldN_fits rfl hF
  case h_15 hF => exact decodeFamilyE_fits hF
  case h_16 => exact decodeFamilyF_fits (family_F (by and_intros <;> assumption))
  all_goals exact familyRow_matches.mpr ‹_›

/-- No two rows match one word: the word decodes to one instruction, which is of one row. -/
theorem rows_disjoint {r₁ r₂ : OpcodeRow} {w : Word} (h₁ : r₁ ∈ opcodeMap) (h₂ : r₂ ∈ opcodeMap) (hw₁ : r₁.Matches w)
    (hw₂ : r₂.Matches w) : r₁ = r₂ := by
  obtain ⟨i, hi, rfl⟩ := decode_of_row_matches h₁ hw₁
  obtain ⟨j, hj, rfl⟩ := decode_of_row_matches h₂ hw₂
  obtain rfl : i = j := Except.ok.inj (hi.symm.trans hj)
  rfl

theorem no_row_of_decode_unmapped {w : Word} (h : decode w = .error (.unmapped w) ∨ ∃ nnn, decode w = .ok (.sysAddr nnn)) :
    ∀ r ∈ opcodeMap, ¬ r.Matches w := by
  intro r hr hw
  obtain ⟨i, hi, rfl⟩ := decode_of_row_matches hr hw
  obtain he | ⟨nnn, hs⟩ := h
  · cases hi.symm.trans he
  · obtain rfl : i = .sysAddr nnn := Except.ok.inj (hi.symm.trans hs)
    exact sysAddr_opcodeRow_not_mem nnn hr

theorem decode_unmapped_of_no_row {w : Word} (h : ∀ r ∈ opcodeMap, ¬ r.Matches w) :
    decode w = .error (.unmapped w) ∨ ∃ nnn, decode w = .ok (.sysAddr nnn) := by
  have hfit := decode_fits w
  cases hd : decode w with
  | error e =>
    rw [hd] at hfit
    exact .inl (congrArg Except.error hfit)
  | ok i =>
    rw [hd] at hfit
    obtain hmem | ⟨nnn, rfl⟩ := opcodeRow_mem_or_sysAddr i
    · exact absurd hfit (h _ hmem)
    · exact .inr ⟨nnn, rfl⟩

/-- Settles O3: a matching row fixes what the decoder answers, so the rows are disjoint; and what the decoder answers matches
its row, so a word of no row is unmapped. -/
theorem decodeFollowsOpcodeMap : Obligations.DecodeFollowsOpcodeMap := fun _ =>
  ⟨fun _ h₁ _ h₂ hw₁ hw₂ => rows_disjoint h₁ h₂ hw₁ hw₂, fun _ hr hw => decode_of_row_matches hr hw,
    no_row_of_decode_unmapped, decode_unmapped_of_no_row⟩

end Sys2Proof

/-! ### The step of an unmapped word (spec 30_encoding.md R85; 40_engine.md R106) -/

namespace Sys2Proof

/-- Only family 0 answers row 35 (R85). -/
theorem decode_eq_sysAddr {w : Word} {nnn : Addr} (h : decode w = .ok (.sysAddr nnn)) :
    fieldF w = 0x0#4 ∧ fieldNNN w = nnn := by
  have hF : fieldF w = 0x0#4 := by
    have hfit := decode_fits w
    rw [h] at hfit
    exact familyRow_matches.mp hfit
  refine ⟨hF, ?_⟩
  have h0 : decodeFamily0 w = .ok (.sysAddr nnn) := by simpa only [decode, hF] using h
  unfold decodeFamily0 at h0
  split at h0
  case isTrue => cases h0
  case isFalse =>
    split at h0
    case isTrue => cases h0
    case isFalse => exact Instr.sysAddr.inj (Except.ok.inj h0)

/-- The word that row 35 reports is the word that was decoded. -/
theorem encode_of_decode_eq_sysAddr {w : Word} {nnn : Addr} (h : decode w = .ok (.sysAddr nnn)) :
    encode (.sysAddr nnn) = w := by
  obtain ⟨hF, rfl⟩ := decode_eq_sysAddr h
  calc encode (.sysAddr (fieldNNN w)) = fieldF w ++ fieldNNN w := by rw [hF]; rfl
    _ = w := word_FNNN w

namespace Machine

/-- A diagnostic taken changes nothing but the report and the record (R107, R234). -/
theorem onlyReports_raise (d : Diagnostic) (s : State) : OnlyReports d s (s.raise d) := by
  refine ⟨⟨fun r _ => s.reg_congr (s.raise_v d) r, fun p _ => ?_⟩, s.raise_report d⟩
  cases p with
  | stack => exact ⟨s.raise_sp d, fun _ _ => rfl⟩
  | display => exact fun _ _ => rfl
  | memory => exact s.byteAt_congr (s.raise_config d) (s.raise_mem d)
  | keys => exact fun _ => rfl
  | index | pc | delayTimer | soundTimer | romImage | config | soundOut | draws => exact rfl

variable {s : State} {w : Word}

/-- A step whose word decodes is that instruction after the fetch advance (R100). -/
theorem step_of_decode_ok {i : Instr} (hf : fetch s = .ok w) (hd : decode w = .ok i) : step s = exec i s.advance := by
  simp only [step, hf, hd]

/-- A step whose word does not decode reports it after the fetch advance (R106). -/
theorem step_of_decode_error {e : Reject} (hf : fetch s = .ok w) (hd : decode w = .error e) :
    step s = .next (s.advance.raise (.unmappedOpcode w)) := by
  simp only [step, hf, hd, unmapped]

theorem exec_sysAddr (nnn : Addr) (s : State) :
    exec (.sysAddr nnn) s = .next (s.raise (.unmappedOpcode (encode (.sysAddr nnn)))) := rfl

/-- A word of no row and a word of row 35 make one and the same step (R85, R106). -/
theorem step_of_decode_unmapped (hf : fetch s = .ok w)
    (hd : decode w = .error (.unmapped w) ∨ ∃ nnn, decode w = .ok (.sysAddr nnn)) :
    step s = .next (s.advance.raise (.unmappedOpcode w)) := by
  obtain he | ⟨nnn, hs⟩ := hd
  · exact step_of_decode_error hf he
  · rw [step_of_decode_ok hf hs, exec_sysAddr, encode_of_decode_eq_sysAddr hs]

/-- Settles O8: the step raises the diagnostic on the advanced state, and a diagnostic taken changes nothing else. -/
theorem unmappedWordOnlyAdvances : Obligations.UnmappedWordOnlyAdvances := fun s w hf hd =>
  ⟨s.advance.raise (.unmappedOpcode w), step_of_decode_unmapped hf hd, onlyReports_raise _ s.advance⟩

end Machine

end Sys2Proof

/-! ### Encoded words, from the fields of each pattern (spec 30_encoding.md R80, R84) -/

namespace Sys2Proof.Machine

/-- A family keyed on the selector alone, with NNN as its operand. -/
theorem encodesAs_FNNN {f : BitVec 4} {i : Addr → Instr} (henc : ∀ nnn, encode (i nnn) = f ++ nnn)
    (hdec : ∀ w, fieldF w = f → decode w = .ok (i (fieldNNN w))) (nnn : Addr) : EncodesAs (f ++ nnn) (i nnn) := by
  obtain ⟨hF, hNNN⟩ := fields_FNNN f nnn
  exact ⟨henc nnn, (hdec _ hF).trans (by rw [hNNN])⟩

/-- A family keyed on the selector alone, with X and NN as its operands. -/
theorem encodesAs_FXNN {f : BitVec 4} {i : Reg → Byte → Instr} (henc : ∀ x nn, encode (i x nn) = f ++ regBits x ++ nn)
    (hdec : ∀ w, fieldF w = f → decode w = .ok (i (fieldX w) (fieldNN w))) (x : Reg) (nn : Byte) :
    EncodesAs (f ++ regBits x ++ nn) (i x nn) := by
  obtain ⟨hF, hX, hNN⟩ := fields_FXNN f x nn
  exact ⟨henc x nn, (hdec _ hF).trans (by rw [hX, hNN])⟩

/-- A row keyed on the selector and N, with X and Y as its operands. -/
theorem encodesAs_FXYN {f : BitVec 4} {n : Nibble} {i : Reg → Reg → Instr}
    (henc : ∀ x y, encode (i x y) = f ++ regBits x ++ regBits y ++ n)
    (hdec : ∀ w, fieldF w = f → fieldN w = n → decode w = .ok (i (fieldX w) (fieldY w))) (x y : Reg) :
    EncodesAs (f ++ regBits x ++ regBits y ++ n) (i x y) := by
  obtain ⟨hF, hX, hY, hN⟩ := fields_FXYN f x y n
  exact ⟨henc x y, (hdec _ hF hN).trans (by rw [hX, hY])⟩

/-- Families 5 and 9 have the one row N = 0 (R83, R86). -/
theorem decode_unmapped_of_fieldN_ne_zero {w : Word} (hF : fieldF w = 0x5#4 ∨ fieldF w = 0x9#4) (hN : fieldN w ≠ 0#4) :
    decode w = .error (.unmapped w) := by
  obtain hF | hF := hF <;> simp only [decode, hF, if_neg hN]

end Sys2Proof.Machine

/-! ### Control flow (spec 41_control_flow.md R120 to R127) -/

namespace Sys2Proof.Machine

/-! #### The frame of an instruction that writes PC, or PC and the stack -/

theorem completes_pc_stack (s : State) (a : Word) (stack : Vector Word 12) (sp : Fin 13) :
    Completes [] [.pc, .stack] s ({ s with pc := a, stack := stack, sp := sp } : State).complete := by
  refine ⟨⟨fun _ _ => rfl, fun p hp => ?_⟩, rfl, rfl⟩
  cases p with
  | pc | stack => exact absurd (by decide) hp
  | display => exact fun _ _ => rfl
  | memory | keys => exact fun _ => rfl
  | index | delayTimer | soundTimer | romImage | config | soundOut | draws => exact rfl

/-- As for PC and the stack, with the old stack. -/
theorem completes_pc (s : State) (a : Word) : Completes [] [.pc] s ({ s with pc := a } : State).complete := by
  obtain ⟨⟨hregs, hparts⟩, hok⟩ := completes_pc_stack s a s.stack s.sp
  refine ⟨⟨hregs, fun p hp => ?_⟩, hok⟩
  by_cases hstack : p = .stack
  · subst hstack
    exact ⟨rfl, fun _ _ => rfl⟩
  · exact hparts p (by simpa [hstack] using hp)

/-! #### RET and CALL -/

/-- RET of a stack that is not empty (R120). -/
theorem exec_ret_of_pos {s : State} (h : 0 < s.sp.val) :
    exec .ret s = .next ({ s with
      sp := ⟨s.sp.val - 1, by have := s.sp.isLt; omega⟩
      pc := s.stack[s.sp.val - 1]'(by have := s.sp.isLt; omega) } : State).complete := by
  obtain ⟨h0, -⟩ | ⟨_, hpop⟩ := popPc_cases s
  · omega
  · exact conclude_ok hpop

/-- RET of an empty stack (R120). -/
theorem exec_ret_of_zero {s : State} (h : s.sp.val = 0) : exec .ret s = .next (s.raise (.stackUnderflow (s.pc - 2))) := by
  obtain ⟨-, hpop⟩ | ⟨hpos, -⟩ := popPc_cases s
  · exact conclude_error hpop
  · omega

/-- CALL on a stack that is not full (R122). -/
theorem exec_callAddr_of_lt {s : State} (nnn : Addr) (h : s.sp.val < 12) :
    exec (.callAddr nnn) s = .next ({ s with
      pc := zextAddr nnn
      stack := s.stack.set s.sp.val s.pc h
      sp := ⟨s.sp.val + 1, by omega⟩ } : State).complete := by
  obtain ⟨hfull, -⟩ | ⟨_, hpush⟩ := push_cases s s.pc
  · omega
  · exact conclude_ok (by rw [hpush])

/-- CALL on a full stack (R122). -/
theorem exec_callAddr_of_full {s : State} (nnn : Addr) (h : s.sp.val = 12) :
    exec (.callAddr nnn) s = .next (s.raise (.stackOverflow (s.pc - 2))) := by
  obtain ⟨-, hpush⟩ | ⟨hlt, -⟩ := push_cases s s.pc
  · exact conclude_error (by rw [hpush])
  · omega

theorem encodesAs_callAddr (nnn : Addr) : EncodesAs (0x2#4 ++ nnn) (.callAddr nnn) :=
  encodesAs_FNNN (fun _ => rfl) (fun _ hF => by simp only [decode, hF]) nnn

/-- Settles O17: by whether the stack is empty. -/
theorem retPopsReturnAddress : Obligations.RetPopsReturnAddress :=
  ⟨⟨rfl, rfl⟩,
    fun s h => ⟨_, exec_ret_of_pos h, rfl, rfl, fun _ _ => rfl, completes_pc_stack s _ s.stack _⟩,
    fun s h => ⟨_, exec_ret_of_zero h, onlyReports_raise _ s⟩⟩

/-- Settles O18: by whether the stack is full. -/
theorem callPushesReturnAddress : Obligations.CallPushesReturnAddress := by
  refine fun nnn => ⟨encodesAs_callAddr nnn, fun s h => ?_, fun s h => ?_⟩
  · refine ⟨_, exec_callAddr_of_lt nnn h, zextAddr_toNat nnn, rfl, fun k hk => ?_, completes_pc_stack s _ _ _⟩
    exact (Vector.getElem_set h hk).trans (if_congr eq_comm rfl rfl)
  · exact ⟨_, exec_callAddr_of_full nnn h, onlyReports_raise _ s⟩

/-! #### The jumps -/

theorem exec_jpAddr (nnn : Addr) (s : State) :
    exec (.jpAddr nnn) s = .next ({ s with pc := zextAddr nnn } : State).complete := rfl

theorem exec_jpV0Addr (nnn : Addr) (s : State) :
    exec (.jpV0Addr nnn) s = .next ({ s with pc := zextAddr nnn + zextByte (s.reg 0) } : State).complete := rfl

/-- The sum of an address and a byte fits 16 bits (R127). -/
theorem zextAddr_add_zextByte_toNat (nnn : Addr) (b : Byte) :
    (zextAddr nnn + zextByte b).toNat = nnn.toNat + b.toNat := by
  have := nnn.isLt
  have := b.isLt
  rw [BitVec.toNat_add, zextAddr_toNat, zextByte_toNat]
  omega

theorem encodesAs_jpAddr (nnn : Addr) : EncodesAs (0x1#4 ++ nnn) (.jpAddr nnn) :=
  encodesAs_FNNN (fun _ => rfl) (fun _ hF => by simp only [decode, hF]) nnn

theorem encodesAs_jpV0Addr (nnn : Addr) : EncodesAs (0xB#4 ++ nnn) (.jpV0Addr nnn) :=
  encodesAs_FNNN (fun _ => rfl) (fun _ hF => by simp only [decode, hF]) nnn

/-- Settles O20: JP writes the widened address. -/
theorem jumpWritesPc : Obligations.JumpWritesPc := fun nnn s =>
  ⟨encodesAs_jpAddr nnn, _, exec_jpAddr nnn s, zextAddr_toNat nnn, completes_pc s _⟩

/-- Settles O21: the sum of the widened operands does not wrap. -/
theorem indexedJumpAddsV0 : Obligations.IndexedJumpAddsV0 := by
  intro nnn s
  have hsum := zextAddr_add_zextByte_toNat nnn (s.reg 0)
  have hbound : nnn.toNat + (s.reg 0).toNat ≤ 0x10FE := by
    have := nnn.isLt
    have := (s.reg 0).isLt
    omega
  exact ⟨encodesAs_jpV0Addr nnn, _, exec_jpV0Addr nnn s, hsum, hsum.trans_le hbound, completes_pc s _⟩

/-! #### The skips -/

theorem completes_skipIf (s : State) (b : Bool) : Completes [] [.pc] s (s.skipIf b).complete := by
  cases b with
  | false => exact completes_pc s s.pc
  | true => exact completes_pc s (s.pc + 2)

/-- A skip on equal values (R109). -/
theorem finish_skipIf_beq (s : State) (a b : Byte) :
    ∃ t, finish (s.skipIf (a == b)) = .next t ∧ t.pc = (if a = b then s.pc + 2 else s.pc) ∧ Completes [] [.pc] s t :=
  ⟨_, rfl, by simp only [State.complete_pc, State.skipIf_pc, beq_iff_eq], completes_skipIf s _⟩

/-- A skip on different values (R109). -/
theorem finish_skipIf_bne (s : State) (a b : Byte) :
    ∃ t, finish (s.skipIf (a != b)) = .next t ∧ t.pc = (if a = b then s.pc else s.pc + 2) ∧ Completes [] [.pc] s t :=
  ⟨_, rfl, by simp only [State.complete_pc, State.skipIf_pc, bne_iff_ne, ite_not], completes_skipIf s _⟩

theorem exec_seVxByte (x : Reg) (nn : Byte) (s : State) : exec (.seVxByte x nn) s = finish (s.skipIf (s.reg x == nn)) := rfl

theorem exec_sneVxByte (x : Reg) (nn : Byte) (s : State) : exec (.sneVxByte x nn) s = finish (s.skipIf (s.reg x != nn)) := rfl

theorem exec_seVxVy (x y : Reg) (s : State) : exec (.seVxVy x y) s = finish (s.skipIf (s.reg x == s.reg y)) := rfl

theorem exec_sneVxVy (x y : Reg) (s : State) : exec (.sneVxVy x y) s = finish (s.skipIf (s.reg x != s.reg y)) := rfl

theorem encodesAs_seVxByte (x : Reg) (nn : Byte) : EncodesAs (0x3#4 ++ regBits x ++ nn) (.seVxByte x nn) :=
  encodesAs_FXNN (fun _ _ => rfl) (fun _ hF => by simp only [decode, hF]) x nn

theorem encodesAs_sneVxByte (x : Reg) (nn : Byte) : EncodesAs (0x4#4 ++ regBits x ++ nn) (.sneVxByte x nn) :=
  encodesAs_FXNN (fun _ _ => rfl) (fun _ hF => by simp only [decode, hF]) x nn

theorem encodesAs_seVxVy (x y : Reg) : EncodesAs (0x5#4 ++ regBits x ++ regBits y ++ 0x0#4) (.seVxVy x y) :=
  encodesAs_FXYN (fun _ _ => rfl) (fun _ hF hN => by simp only [decode, hF, if_pos hN]) x y

theorem encodesAs_sneVxVy (x y : Reg) : EncodesAs (0x9#4 ++ regBits x ++ regBits y ++ 0x0#4) (.sneVxVy x y) :=
  encodesAs_FXYN (fun _ _ => rfl) (fun _ hF hN => by simp only [decode, hF, if_pos hN]) x y

/-- Settles O22: both are skips, on equal and on different values. -/
theorem skipsCompareWithImmediate : Obligations.SkipsCompareWithImmediate := by
  intro x nn s
  rw [exec_seVxByte, exec_sneVxByte]
  exact ⟨encodesAs_seVxByte x nn, encodesAs_sneVxByte x nn, finish_skipIf_beq s _ _, finish_skipIf_bne s _ _⟩

/-- Settles O23: as for an immediate, and with N above 0 the decoder finds no row. -/
theorem skipsCompareRegisters : Obligations.SkipsCompareRegisters := by
  intro x y s
  rw [exec_seVxVy, exec_sneVxVy]
  refine ⟨encodesAs_seVxVy x y, encodesAs_sneVxVy x y, fun n hn => ⟨?_, ?_⟩, finish_skipIf_beq s _ _, finish_skipIf_bne s _ _⟩
  · obtain ⟨hF, -, -, hN⟩ := fields_FXYN 0x5#4 x y n
    exact decode_unmapped_of_fieldN_ne_zero (.inl hF) (hN.trans_ne hn)
  · obtain ⟨hF, -, -, hN⟩ := fields_FXYN 0x9#4 x y n
    exact decode_unmapped_of_fieldN_ne_zero (.inr hF) (hN.trans_ne hn)

end Sys2Proof.Machine

/-! ### Register loads and arithmetic (spec 42_alu.md R140 to R142, R146 to R150) -/

namespace Sys2Proof.Machine

/-! #### The frame of an instruction that writes registers -/

/-- Whatever the registers become, the frame is theirs: of those not listed nothing may change. -/
theorem completes_regs {s : State} {v : Vector Byte 16} {regs : List Reg} (h : ∀ r, r ∉ regs → v[r] = s.v[r]) :
    Completes regs [] s ({ s with v := v } : State).complete := by
  refine ⟨⟨h, fun p _ => ?_⟩, rfl, rfl⟩
  cases p with
  | stack => exact ⟨rfl, fun _ _ => rfl⟩
  | display => exact fun _ _ => rfl
  | memory | keys => exact fun _ => rfl
  | index | pc | delayTimer | soundTimer | romImage | config | soundOut | draws => exact rfl

theorem completes_setReg (s : State) (x : Reg) (b : Byte) : Completes [x] [] s (s.setReg x b).complete :=
  completes_regs fun _ hr => s.reg_setReg_ne (List.ne_of_not_mem_cons hr) b

theorem completes_setResultAndFlag (s : State) (x : Reg) (result flag : Byte) :
    Completes [x, 15] [] s (s.setResultAndFlag x result flag).complete := by
  refine completes_regs fun r hr => (s.reg_setResultAndFlag x r result flag).trans ?_
  simp only [List.mem_cons, List.not_mem_nil, or_false, not_or] at hr
  exact (if_neg hr.2).trans (if_neg hr.1)

/-- An instruction that ends in one register write (R13, R105). -/
theorem finish_setReg (s : State) (x : Reg) (b : Byte) :
    ∃ t, finish (s.setReg x b) = .next t ∧ t.reg x = b ∧ Completes [x] [] s t :=
  ⟨_, rfl, s.reg_setReg_self x b, completes_setReg s x b⟩

/-- An instruction that ends in a result and then a flag, the flag winning when both go to VF (R23). -/
theorem finish_setResultAndFlag (s : State) (x : Reg) (result flag : Byte) :
    ∃ t, finish (s.setResultAndFlag x result flag) = .next t ∧ (x ≠ 15 → t.reg x = result) ∧ t.reg 15 = flag ∧
      Completes [x, 15] [] s t := by
  refine ⟨_, rfl, fun hx => ?_, ?_, completes_setResultAndFlag s x result flag⟩
  · exact (s.reg_setResultAndFlag x x result flag).trans (by rw [if_neg hx, if_pos rfl])
  · exact (s.reg_setResultAndFlag x 15 result flag).trans (if_pos rfl)

/-! #### Results and flags as numbers -/

theorem carryFlag_toNat (a b : Byte) : (carryFlag a b).toNat = if 256 ≤ a.toNat + b.toNat then 1 else 0 := by
  simp only [carryFlag, flagByte_toNat, decide_eq_true_eq]

theorem noBorrowFlag_toNat (a b : Byte) : (noBorrowFlag a b).toNat = if b.toNat ≤ a.toNat then 1 else 0 := by
  simp only [noBorrowFlag, flagByte_toNat, decide_eq_true_eq]

/-- The difference of two bytes is the exact one mod 256 (R147, R149). -/
theorem sub_toNat_int (a b : Byte) : ((a - b).toNat : Int) = (a.toNat - b.toNat : Int) % 256 := by
  have := a.isLt
  have := b.isLt
  rw [sub_toNat]
  omega

/-! #### What each instruction ends in -/

theorem exec_ldVxByte (x : Reg) (nn : Byte) (s : State) : exec (.ldVxByte x nn) s = finish (s.setReg x nn) := rfl

theorem exec_ldVxVy (x y : Reg) (s : State) : exec (.ldVxVy x y) s = finish (s.setReg x (s.reg y)) := rfl

theorem exec_addVxByte (x : Reg) (nn : Byte) (s : State) :
    exec (.addVxByte x nn) s = finish (s.setReg x (s.reg x + nn)) := rfl

theorem exec_addVxVy (x y : Reg) (s : State) : exec (.addVxVy x y) s =
    finish (s.setResultAndFlag x (s.reg x + s.reg y) (carryFlag (s.reg x) (s.reg y))) := rfl

theorem exec_subVxVy (x y : Reg) (s : State) : exec (.subVxVy x y) s =
    finish (s.setResultAndFlag x (s.reg x - s.reg y) (noBorrowFlag (s.reg x) (s.reg y))) := rfl

theorem exec_subnVxVy (x y : Reg) (s : State) : exec (.subnVxVy x y) s =
    finish (s.setResultAndFlag x (s.reg y - s.reg x) (noBorrowFlag (s.reg y) (s.reg x))) := rfl

theorem exec_shrVx (x y : Reg) (s : State) : exec (.shrVx x y) s =
    finish (s.setResultAndFlag x (s.reg x >>> 1) (shiftedOutRight (s.reg x))) := rfl

theorem exec_shlVx (x y : Reg) (s : State) : exec (.shlVx x y) s =
    finish (s.setResultAndFlag x (s.reg x <<< 1) (shiftedOutLeft (s.reg x))) := rfl

/-! #### The encodings -/

theorem encodesAs_ldVxByte (x : Reg) (nn : Byte) : EncodesAs (0x6#4 ++ regBits x ++ nn) (.ldVxByte x nn) :=
  encodesAs_FXNN (fun _ _ => rfl) (fun _ hF => by simp only [decode, hF]) x nn

theorem encodesAs_addVxByte (x : Reg) (nn : Byte) : EncodesAs (0x7#4 ++ regBits x ++ nn) (.addVxByte x nn) :=
  encodesAs_FXNN (fun _ _ => rfl) (fun _ hF => by simp only [decode, hF]) x nn

/-- A row of family 8, which is keyed on N (R83). -/
theorem encodesAs_8XYN {n : Nibble} {i : Reg → Reg → Instr}
    (henc : ∀ x y, encode (i x y) = 0x8#4 ++ regBits x ++ regBits y ++ n)
    (hdec : ∀ w, fieldN w = n → decodeFamily8 w = .ok (i (fieldX w) (fieldY w))) (x y : Reg) :
    EncodesAs (0x8#4 ++ regBits x ++ regBits y ++ n) (i x y) :=
  encodesAs_FXYN henc (fun w hF hN => (show decode w = decodeFamily8 w by simp only [decode, hF]).trans (hdec w hN)) x y

theorem encodesAs_ldVxVy (x y : Reg) : EncodesAs (0x8#4 ++ regBits x ++ regBits y ++ 0x0#4) (.ldVxVy x y) :=
  encodesAs_8XYN (fun _ _ => rfl) (fun _ hN => by simp only [decodeFamily8, hN]) x y

theorem encodesAs_addVxVy (x y : Reg) : EncodesAs (0x8#4 ++ regBits x ++ regBits y ++ 0x4#4) (.addVxVy x y) :=
  encodesAs_8XYN (fun _ _ => rfl) (fun _ hN => by simp only [decodeFamily8, hN]) x y

theorem encodesAs_subVxVy (x y : Reg) : EncodesAs (0x8#4 ++ regBits x ++ regBits y ++ 0x5#4) (.subVxVy x y) :=
  encodesAs_8XYN (fun _ _ => rfl) (fun _ hN => by simp only [decodeFamily8, hN]) x y

theorem encodesAs_shrVx (x y : Reg) : EncodesAs (0x8#4 ++ regBits x ++ regBits y ++ 0x6#4) (.shrVx x y) :=
  encodesAs_8XYN (fun _ _ => rfl) (fun _ hN => by simp only [decodeFamily8, hN]) x y

theorem encodesAs_subnVxVy (x y : Reg) : EncodesAs (0x8#4 ++ regBits x ++ regBits y ++ 0x7#4) (.subnVxVy x y) :=
  encodesAs_8XYN (fun _ _ => rfl) (fun _ hN => by simp only [decodeFamily8, hN]) x y

theorem encodesAs_shlVx (x y : Reg) : EncodesAs (0x8#4 ++ regBits x ++ regBits y ++ 0xE#4) (.shlVx x y) :=
  encodesAs_8XYN (fun _ _ => rfl) (fun _ hN => by simp only [decodeFamily8, hN]) x y

/-! #### The loads and the immediate sum, which write no flag -/

/-- Settles O24: both are one register write. -/
theorem loadsWriteTheRegister : Obligations.LoadsWriteTheRegister := by
  refine ⟨fun x nn s => ⟨encodesAs_ldVxByte x nn, ?_⟩, fun x y s => ⟨encodesAs_ldVxVy x y, ?_⟩⟩
  · rw [exec_ldVxByte]
    exact finish_setReg s x nn
  · rw [exec_ldVxVy]
    exact finish_setReg s x (s.reg y)

/-- Settles O25: one register write, of a sum of bytes. -/
theorem addImmediateWrapsWithoutFlag : Obligations.AddImmediateWrapsWithoutFlag := by
  intro x nn s
  obtain ⟨t, ht, hx, hframe⟩ := finish_setReg s x (s.reg x + nn)
  rw [exec_addVxByte]
  exact ⟨encodesAs_addVxByte x nn, t, ht, by rw [hx, BitVec.toNat_add], hframe⟩

/-! #### The sum, the differences and the shifts, which write the flag last -/

/-- Settles O27: a result and a flag, read as numbers. -/
theorem addWritesSumAndCarry : Obligations.AddWritesSumAndCarry := by
  intro x y s
  obtain ⟨t, ht, hx, hflag, hframe⟩ := finish_setResultAndFlag s x (s.reg x + s.reg y) (carryFlag (s.reg x) (s.reg y))
  rw [exec_addVxVy]
  exact ⟨encodesAs_addVxVy x y, t, ht, fun h => by rw [hx h, BitVec.toNat_add], by rw [hflag, carryFlag_toNat], hframe⟩

/-- A subtraction, in whichever order its operands stand (R147, R149). -/
theorem finish_difference (s : State) (x : Reg) (a b : Byte) :
    ∃ t, finish (s.setResultAndFlag x (a - b) (noBorrowFlag a b)) = .next t ∧
      (x ≠ 15 → ((t.reg x).toNat : Int) = (a.toNat - b.toNat : Int) % 256) ∧
      (t.reg 15).toNat = (if b.toNat ≤ a.toNat then 1 else 0) ∧ Completes [x, 15] [] s t := by
  obtain ⟨t, ht, hx, hflag, hframe⟩ := finish_setResultAndFlag s x (a - b) (noBorrowFlag a b)
  exact ⟨t, ht, fun h => by rw [hx h, sub_toNat_int], by rw [hflag, noBorrowFlag_toNat], hframe⟩

/-- Settles O28: the two subtract the same bytes in opposite orders. -/
theorem subtractionsWriteDifferenceAndNoBorrow : Obligations.SubtractionsWriteDifferenceAndNoBorrow := by
  intro x y s
  rw [exec_subVxVy, exec_subnVxVy]
  exact ⟨encodesAs_subVxVy x y, encodesAs_subnVxVy x y, finish_difference s x _ _, finish_difference s x _ _⟩

/-- Settles O29: each shift leaves half or double of VX, and the bit moved out as the flag. -/
theorem shiftsMoveVxAndItsEdgeBit : Obligations.ShiftsMoveVxAndItsEdgeBit := by
  intro x y s
  rw [exec_shrVx, exec_shlVx]
  refine ⟨encodesAs_shrVx x y, encodesAs_shlVx x y, ?_, ?_⟩
  · obtain ⟨t, ht, hx, hflag, hframe⟩ := finish_setResultAndFlag s x (s.reg x >>> 1) (shiftedOutRight (s.reg x))
    exact ⟨t, ht, fun h => by rw [hx h, ushiftRight_one_toNat], by rw [hflag, shiftedOutRight_toNat], hframe⟩
  · obtain ⟨t, ht, hx, hflag, hframe⟩ := finish_setResultAndFlag s x (s.reg x <<< 1) (shiftedOutLeft (s.reg x))
    exact ⟨t, ht, fun h => by rw [hx h, shiftLeft_one_toNat], by rw [hflag, shiftedOutLeft_toNat], hframe⟩

end Sys2Proof.Machine

/-! ### Index register (spec 43_index_memory.md R170, R172) -/

namespace Sys2Proof.Machine

/-- A row keyed on the selector and NN, with X as its operand (R83). -/
theorem encodesAs_FX {f : BitVec 4} {nn : Byte} {i : Reg → Instr} (henc : ∀ x, encode (i x) = f ++ regBits x ++ nn)
    (hdec : ∀ w, fieldF w = f → fieldNN w = nn → decode w = .ok (i (fieldX w))) (x : Reg) :
    EncodesAs (f ++ regBits x ++ nn) (i x) := by
  obtain ⟨hF, hX, hNN⟩ := fields_FXNN f x nn
  exact ⟨henc x, (hdec _ hF hNN).trans (by rw [hX])⟩

/-- The last family is read by its own decoder (R83). -/
theorem decode_of_fieldF_eq_F {w : Word} (hF : fieldF w = 0xF#4) : decode w = decodeFamilyF w := by
  simp only [decode, hF]
  rfl

/-- The frame of an instruction that writes I. -/
theorem completes_index (s : State) (a : Word) : Completes [] [.index] s ({ s with index := a } : State).complete := by
  refine ⟨⟨fun _ _ => rfl, fun p hp => ?_⟩, rfl, rfl⟩
  cases p with
  | index => exact absurd (by decide) hp
  | stack => exact ⟨rfl, fun _ _ => rfl⟩
  | display => exact fun _ _ => rfl
  | memory | keys => exact fun _ => rfl
  | pc | delayTimer | soundTimer | romImage | config | soundOut | draws => exact rfl

theorem exec_ldIAddr (nnn : Addr) (s : State) :
    exec (.ldIAddr nnn) s = .next ({ s with index := zextAddr nnn } : State).complete := rfl

theorem exec_ldFVx (x : Reg) (s : State) :
    exec (.ldFVx x) s = .next ({ s with index := glyphAddr (s.reg x) } : State).complete := rfl

theorem encodesAs_ldIAddr (nnn : Addr) : EncodesAs (0xA#4 ++ nnn) (.ldIAddr nnn) :=
  encodesAs_FNNN (fun _ => rfl) (fun _ hF => by simp only [decode, hF]) nnn

theorem encodesAs_ldFVx (x : Reg) : EncodesAs (0xF#4 ++ regBits x ++ 0x29#8) (.ldFVx x) :=
  encodesAs_FX (fun _ => rfl) (fun _ hF hNN => (decode_of_fieldF_eq_F hF).trans (by simp only [decodeFamilyF, hNN])) x

/-- Settles O31: both write I alone, a widened address and a glyph address; five times a byte does not wrap. -/
theorem indexLoadsWriteAddressAndGlyph : Obligations.IndexLoadsWriteAddressAndGlyph := by
  refine ⟨fun nnn s => ⟨encodesAs_ldIAddr nnn, _, exec_ldIAddr nnn s, zextAddr_toNat nnn, completes_index s _⟩,
    fun x s => ⟨encodesAs_ldFVx x, _, exec_ldFVx x s, ?_, completes_index s _⟩⟩
  exact (glyphAddr_toNat (s.reg x)).trans (Nat.mul_comm 5 _)

end Sys2Proof.Machine

/-! ### Display clear (spec 44_display.md R190) -/

namespace Sys2Proof.Machine

/-- The frame of an instruction that writes the display and no register. -/
theorem completes_display (s : State) (d : Display) :
    Completes [] [.display] s ({ s with disp := d } : State).complete := by
  refine ⟨⟨fun _ _ => rfl, fun p hp => ?_⟩, rfl, rfl⟩
  cases p with
  | display => exact absurd (by decide) hp
  | stack => exact ⟨rfl, fun _ _ => rfl⟩
  | memory | keys => exact fun _ => rfl
  | pc | index | delayTimer | soundTimer | romImage | config | soundOut | draws => exact rfl

theorem exec_cls (s : State) : exec .cls s = .next ({ s with disp := Display.clear } : State).complete := rfl

theorem encodesAs_cls : EncodesAs 0x00E0 .cls := ⟨rfl, rfl⟩

/-- Settles O38: the display becomes the cleared one, whose pixels are off, and nothing else is written. -/
theorem clearTurnsEveryPixelOff : Obligations.ClearTurnsEveryPixelOff :=
  ⟨encodesAs_cls, fun s => ⟨_, exec_cls s, Display.pixel_clear, completes_display s _⟩⟩

end Sys2Proof.Machine

/-! ### Reset and load (spec 70_reset_and_hazards.md R270, R273, R275) -/

namespace Sys2Proof.Machine

/-- The memory of a reset: the glyphs, then zeros, with the program image at 0x200 (R270, D15). -/
theorem byteAt_resetCommand (s : State) (a : Nat) :
    (resetCommand s).byteAt a =
      if h : a < 80 then s.config.glyphs[a]
      else if 0x200 ≤ a ∧ a < 0x200 + s.romImage.length then s.romImage.getD (a - 0x200) 0
      else 0 := by
  refine (read_imageMemory s.config s.romImage a).trans ?_
  by_cases hglyph : a < 80
  · have hout : ¬ (0x200 ≤ a ∧ a < 0x200 + s.romImage.length) := by omega
    rw [dif_neg hout, dif_pos hglyph, unlistedByte_glyph hglyph]
  · by_cases himage : 0x200 ≤ a ∧ a < 0x200 + s.romImage.length
    · rw [dif_pos himage, dif_neg hglyph, if_pos himage]
      exact (List.getD_eq_getElem _ _ _).symm
    · rw [dif_neg himage, dif_neg hglyph, if_neg himage, unlistedByte_zero (Nat.le_of_not_lt hglyph)]

/-- RESET leaves every piece of state at its reset value, over the program image the state held (R270, D15). -/
theorem afterReset_resetCommand (s : State) : AfterReset s.romImage (resetCommand s) where
  regs _ := Vector.getElem_replicate _
  index := rfl
  pc := rfl
  stack _ _ := Vector.getElem_replicate _
  sp := rfl
  timers := ⟨rfl, rfl⟩
  display := Display.pixel_clear
  keys _ := Vector.getElem_replicate _
  romImage := rfl
  memory a _ := byteAt_resetCommand s a

/-- The status output is no piece of the Machine State (R37, R40). -/
theorem AfterReset.complete {image : List Byte} {t : State} (h : AfterReset image t) : AfterReset image t.complete :=
  { h with }

/-- A program that fits replaces the image, and the machine is reset over it (R273). -/
theorem loadCommand_of_le {bytes : List Byte} (h : bytes.length ≤ maxProg) (s : State) :
    loadCommand bytes s = (resetCommand { s with romImage := bytes }).complete := if_neg (Nat.not_lt.mpr h)

/-- A program that does not fit is a diagnostic and nothing more (R275). -/
theorem loadCommand_of_lt {bytes : List Byte} (h : maxProg < bytes.length) (s : State) :
    loadCommand bytes s = s.raise (.loadTooLarge bytes.length) := if_pos h

/-- Settles O51: a load that fits is a reset over the new image with status OK; a longer one only raises. -/
theorem loadWritesProgramOrRejectsWhole : Obligations.LoadWritesProgramOrRejectsWhole := by
  refine fun bytes s => ⟨fun hfits => ⟨loadCommand bytes s, rfl, ?_⟩, fun hlong => ⟨loadCommand bytes s, rfl, ?_⟩⟩
  · rw [loadCommand_of_le hfits]
    exact ⟨(afterReset_resetCommand { s with romImage := bytes }).complete, rfl, rfl⟩
  · rw [loadCommand_of_lt hlong]
    exact onlyReports_raise _ s

end Sys2Proof.Machine

/-! ### Decoding and encoding undo each other (spec 30_encoding.md R80, R84, R85) -/

namespace Sys2Proof.Machine

/-! #### The encodings of the remaining rows -/

theorem encodesAs_ret : EncodesAs 0x00EE .ret := ⟨rfl, rfl⟩

theorem encodesAs_orVxVy (x y : Reg) : EncodesAs (0x8#4 ++ regBits x ++ regBits y ++ 0x1#4) (.orVxVy x y) :=
  encodesAs_8XYN (fun _ _ => rfl) (fun _ hN => by simp only [decodeFamily8, hN]) x y

theorem encodesAs_andVxVy (x y : Reg) : EncodesAs (0x8#4 ++ regBits x ++ regBits y ++ 0x2#4) (.andVxVy x y) :=
  encodesAs_8XYN (fun _ _ => rfl) (fun _ hN => by simp only [decodeFamily8, hN]) x y

theorem encodesAs_xorVxVy (x y : Reg) : EncodesAs (0x8#4 ++ regBits x ++ regBits y ++ 0x3#4) (.xorVxVy x y) :=
  encodesAs_8XYN (fun _ _ => rfl) (fun _ hN => by simp only [decodeFamily8, hN]) x y

theorem encodesAs_rndVxByte (x : Reg) (nn : Byte) : EncodesAs (0xC#4 ++ regBits x ++ nn) (.rndVxByte x nn) :=
  encodesAs_FXNN (fun _ _ => rfl) (fun _ hF => by simp only [decode, hF]) x nn

theorem encodesAs_drwVxVyNibble (x y : Reg) (n : Nibble) :
    EncodesAs (0xD#4 ++ regBits x ++ regBits y ++ n) (.drwVxVyNibble x y n) := by
  obtain ⟨hF, hX, hY, hN⟩ := fields_FXYN 0xD#4 x y n
  refine ⟨rfl, ?_⟩
  simp only [decode, hF, hX, hY, hN]

/-- A row of family E, which is keyed on NN (R83). -/
theorem encodesAs_EXNN {nn : Byte} {i : Reg → Instr} (henc : ∀ x, encode (i x) = 0xE#4 ++ regBits x ++ nn)
    (hdec : ∀ w, fieldNN w = nn → decodeFamilyE w = .ok (i (fieldX w))) (x : Reg) :
    EncodesAs (0xE#4 ++ regBits x ++ nn) (i x) :=
  encodesAs_FX henc (fun w hF hNN => (show decode w = decodeFamilyE w by simp only [decode, hF]).trans (hdec w hNN)) x

theorem encodesAs_skpVx (x : Reg) : EncodesAs (0xE#4 ++ regBits x ++ 0x9E#8) (.skpVx x) :=
  encodesAs_EXNN (fun _ => rfl) (fun _ hNN => by simp only [decodeFamilyE, hNN]) x

theorem encodesAs_sknpVx (x : Reg) : EncodesAs (0xE#4 ++ regBits x ++ 0xA1#8) (.sknpVx x) :=
  encodesAs_EXNN (fun _ => rfl) (fun _ hNN => by simp only [decodeFamilyE, hNN]) x

/-- A row of the last family, which is keyed on NN (R83). -/
theorem encodesAs_FXNN_of_decodeFamilyF {nn : Byte} {i : Reg → Instr}
    (henc : ∀ x, encode (i x) = 0xF#4 ++ regBits x ++ nn)
    (hdec : ∀ w, fieldNN w = nn → decodeFamilyF w = .ok (i (fieldX w))) (x : Reg) :
    EncodesAs (0xF#4 ++ regBits x ++ nn) (i x) :=
  encodesAs_FX henc (fun w hF hNN => (decode_of_fieldF_eq_F hF).trans (hdec w hNN)) x

theorem encodesAs_ldVxDt (x : Reg) : EncodesAs (0xF#4 ++ regBits x ++ 0x07#8) (.ldVxDt x) :=
  encodesAs_FXNN_of_decodeFamilyF (fun _ => rfl) (fun _ hNN => by simp only [decodeFamilyF, hNN]) x

theorem encodesAs_ldVxK (x : Reg) : EncodesAs (0xF#4 ++ regBits x ++ 0x0A#8) (.ldVxK x) :=
  encodesAs_FXNN_of_decodeFamilyF (fun _ => rfl) (fun _ hNN => by simp only [decodeFamilyF, hNN]) x

theorem encodesAs_ldDtVx (x : Reg) : EncodesAs (0xF#4 ++ regBits x ++ 0x15#8) (.ldDtVx x) :=
  encodesAs_FXNN_of_decodeFamilyF (fun _ => rfl) (fun _ hNN => by simp only [decodeFamilyF, hNN]) x

theorem encodesAs_ldStVx (x : Reg) : EncodesAs (0xF#4 ++ regBits x ++ 0x18#8) (.ldStVx x) :=
  encodesAs_FXNN_of_decodeFamilyF (fun _ => rfl) (fun _ hNN => by simp only [decodeFamilyF, hNN]) x

theorem encodesAs_addIVx (x : Reg) : EncodesAs (0xF#4 ++ regBits x ++ 0x1E#8) (.addIVx x) :=
  encodesAs_FXNN_of_decodeFamilyF (fun _ => rfl) (fun _ hNN => by simp only [decodeFamilyF, hNN]) x

theorem encodesAs_ldBVx (x : Reg) : EncodesAs (0xF#4 ++ regBits x ++ 0x33#8) (.ldBVx x) :=
  encodesAs_FXNN_of_decodeFamilyF (fun _ => rfl) (fun _ hNN => by simp only [decodeFamilyF, hNN]) x

theorem encodesAs_ldIndVx (x : Reg) : EncodesAs (0xF#4 ++ regBits x ++ 0x55#8) (.ldIndVx x) :=
  encodesAs_FXNN_of_decodeFamilyF (fun _ => rfl) (fun _ hNN => by simp only [decodeFamilyF, hNN]) x

theorem encodesAs_ldVxInd (x : Reg) : EncodesAs (0xF#4 ++ regBits x ++ 0x65#8) (.ldVxInd x) :=
  encodesAs_FXNN_of_decodeFamilyF (fun _ => rfl) (fun _ hNN => by simp only [decodeFamilyF, hNN]) x

/-- 0NNN stands for every word of its family but those of CLS and RET (R85). -/
theorem encodesAs_sysAddr {nnn : Addr} (hcls : nnn ≠ 0x0E0#12) (hret : nnn ≠ 0x0EE#12) :
    EncodesAs (0x0#4 ++ nnn) (.sysAddr nnn) := by
  obtain ⟨hF, hNNN⟩ := fields_FNNN 0x0#4 nnn
  have hword : ∀ m : Addr, nnn ≠ m → 0x0#4 ++ nnn ≠ 0x0#4 ++ m := fun _ hne heq =>
    hne (append_eq_append_iff.mp heq).2
  refine ⟨rfl, ?_⟩
  calc decode (0x0#4 ++ nnn) = decodeFamily0 (0x0#4 ++ nnn) := by simp only [decode, hF]
    _ = .ok (.sysAddr (fieldNNN (0x0#4 ++ nnn))) := (if_neg (hword 0x0E0#12 hcls)).trans (if_neg (hword 0x0EE#12 hret))
    _ = .ok (.sysAddr nnn) := by rw [hNNN]

/-! #### Decoding an encoding -/

/-- Row by row, from what each pattern encodes and decodes as. -/
theorem decode_encode (i : Instr) (hwf : i.wellFormed = true) : decode (encode i) = .ok i := by
  cases i with
  | cls => exact encodesAs_cls.2
  | ret => exact encodesAs_ret.2
  | jpAddr nnn => exact (encodesAs_jpAddr nnn).2
  | callAddr nnn => exact (encodesAs_callAddr nnn).2
  | seVxByte x nn => exact (encodesAs_seVxByte x nn).2
  | sneVxByte x nn => exact (encodesAs_sneVxByte x nn).2
  | seVxVy x y => exact (encodesAs_seVxVy x y).2
  | ldVxByte x nn => exact (encodesAs_ldVxByte x nn).2
  | addVxByte x nn => exact (encodesAs_addVxByte x nn).2
  | ldVxVy x y => exact (encodesAs_ldVxVy x y).2
  | orVxVy x y => exact (encodesAs_orVxVy x y).2
  | andVxVy x y => exact (encodesAs_andVxVy x y).2
  | xorVxVy x y => exact (encodesAs_xorVxVy x y).2
  | addVxVy x y => exact (encodesAs_addVxVy x y).2
  | subVxVy x y => exact (encodesAs_subVxVy x y).2
  | shrVx x y => exact (encodesAs_shrVx x y).2
  | subnVxVy x y => exact (encodesAs_subnVxVy x y).2
  | shlVx x y => exact (encodesAs_shlVx x y).2
  | sneVxVy x y => exact (encodesAs_sneVxVy x y).2
  | ldIAddr nnn => exact (encodesAs_ldIAddr nnn).2
  | jpV0Addr nnn => exact (encodesAs_jpV0Addr nnn).2
  | rndVxByte x nn => exact (encodesAs_rndVxByte x nn).2
  | drwVxVyNibble x y n => exact (encodesAs_drwVxVyNibble x y n).2
  | skpVx x => exact (encodesAs_skpVx x).2
  | sknpVx x => exact (encodesAs_sknpVx x).2
  | ldVxDt x => exact (encodesAs_ldVxDt x).2
  | ldVxK x => exact (encodesAs_ldVxK x).2
  | ldDtVx x => exact (encodesAs_ldDtVx x).2
  | ldStVx x => exact (encodesAs_ldStVx x).2
  | addIVx x => exact (encodesAs_addIVx x).2
  | ldFVx x => exact (encodesAs_ldFVx x).2
  | ldBVx x => exact (encodesAs_ldBVx x).2
  | ldIndVx x => exact (encodesAs_ldIndVx x).2
  | ldVxInd x => exact (encodesAs_ldVxInd x).2
  | sysAddr nnn =>
    obtain ⟨hcls, hret⟩ : nnn ≠ 0x0E0#12 ∧ nnn ≠ 0x0EE#12 := by simpa [Instr.wellFormed] using hwf
    exact (encodesAs_sysAddr hcls hret).2

/-- Settles O1: each row's pattern decodes to the instruction it encodes. -/
theorem decodeReadsEncodedInstruction : Obligations.DecodeReadsEncodedInstruction := decode_encode

/-! #### Encoding what was decoded -/

/-- What the decoder may answer for `w`: a well-formed instruction whose word is `w`, or no instruction. -/
def AnswerEncodes (w : Word) : Except Reject Instr → Prop
  | .ok i => encode i = w ∧ i.wellFormed = true
  | .error _ => True

variable {w : Word}

/-! The word from its selector, its operands and the key of its row (R80). -/

theorem word_of_fieldF {f : BitVec 4} (hF : fieldF w = f) : f ++ fieldNNN w = w := by
  rw [← hF, word_FNNN]

theorem word_of_fieldF_byte {f : BitVec 4} (hF : fieldF w = f) : f ++ regBits (fieldX w) ++ fieldNN w = w := by
  rw [← hF, word_FXNN]

theorem word_of_fieldF_nibble {f : BitVec 4} (hF : fieldF w = f) :
    f ++ regBits (fieldX w) ++ regBits (fieldY w) ++ fieldN w = w := by
  rw [← hF, word_FXYN]

theorem word_of_fieldNN {f : BitVec 4} {nn : Byte} (hF : fieldF w = f) (hNN : fieldNN w = nn) :
    f ++ regBits (fieldX w) ++ nn = w := by
  rw [← hNN, word_of_fieldF_byte hF]

theorem word_of_fieldN {f : BitVec 4} {n : Nibble} (hF : fieldF w = f) (hN : fieldN w = n) :
    f ++ regBits (fieldX w) ++ regBits (fieldY w) ++ n = w := by
  rw [← hN, word_of_fieldF_nibble hF]

theorem decodeFamily0_encodes (hF : fieldF w = 0x0#4) : AnswerEncodes w (decodeFamily0 w) := by
  unfold decodeFamily0
  split
  case isTrue h => exact ⟨h.symm, rfl⟩
  case isFalse hcls =>
    split
    case isTrue h => exact ⟨h.symm, rfl⟩
    case isFalse hret =>
      have hword := word_of_fieldF hF
      have hcls' : fieldNNN w ≠ 0x0E0#12 := fun h => hcls (by rw [← hword, h]; rfl)
      have hret' : fieldNNN w ≠ 0x0EE#12 := fun h => hret (by rw [← hword, h]; rfl)
      exact ⟨hword, by simp [Instr.wellFormed, hcls', hret']⟩

theorem decodeFamily8_encodes (hF : fieldF w = 0x8#4) : AnswerEncodes w (decodeFamily8 w) := by
  unfold decodeFamily8
  split
  case h_10 => trivial
  all_goals exact ⟨word_of_fieldN hF ‹_›, rfl⟩

theorem decodeFamilyE_encodes (hF : fieldF w = 0xE#4) : AnswerEncodes w (decodeFamilyE w) := by
  unfold decodeFamilyE
  split
  case h_3 => trivial
  all_goals exact ⟨word_of_fieldNN hF ‹_›, rfl⟩

theorem decodeFamilyF_encodes (hF : fieldF w = 0xF#4) : AnswerEncodes w (decodeFamilyF w) := by
  unfold decodeFamilyF
  split
  case h_10 => trivial
  all_goals exact ⟨word_of_fieldNN hF ‹_›, rfl⟩

/-- Families 5 and 9: one row, keyed on N = 0 (R83). -/
theorem ite_fieldN_encodes {i : Instr} (hi : fieldN w = 0#4 → encode i = w) (hwf : i.wellFormed = true) :
    AnswerEncodes w (if fieldN w = 0#4 then .ok i else .error (.unmapped w)) := by
  split
  case isTrue hN => exact ⟨hi hN, hwf⟩
  case isFalse => trivial

/-- Family by family; those of one row are put together by what operands they have. -/
theorem decode_encodes (w : Word) : AnswerEncodes w (decode w) := by
  unfold decode
  split
  case h_1 hF => exact decodeFamily0_encodes hF
  case h_6 hF => exact ite_fieldN_encodes (word_of_fieldN hF) rfl
  case h_9 hF => exact decodeFamily8_encodes hF
  case h_10 hF => exact ite_fieldN_encodes (word_of_fieldN hF) rfl
  case h_14 hF => exact ⟨word_of_fieldF_nibble hF, rfl⟩
  case h_15 hF => exact decodeFamilyE_encodes hF
  case h_16 => exact decodeFamilyF_encodes (family_F (by and_intros <;> assumption))
  case h_2 | h_3 | h_11 | h_12 => exact ⟨word_of_fieldF ‹_›, rfl⟩
  case h_4 | h_5 | h_7 | h_8 | h_13 => exact ⟨word_of_fieldF_byte ‹_›, rfl⟩

theorem encode_of_decode_ok {i : Instr} (h : decode w = .ok i) : encode i = w ∧ i.wellFormed = true := by
  have hans := decode_encodes w
  rwa [h] at hans

/-- Settles O2: each answer of the decoder is made of the fields of the word, which make the word up. -/
theorem encodeGivesDecodedWord : Obligations.EncodeGivesDecodedWord := fun _ _ => encode_of_decode_ok

end Sys2Proof.Machine

/-! ### The mnemonic port (spec 30_encoding.md R84, R92) -/

namespace Sys2Proof.Machine

/-- Settles O4: the decoder evaluated at each of the words. -/
theorem sampleWordsDecode : Obligations.SampleWordsDecode := by
  unfold Obligations.SampleWordsDecode
  decide

/-- What a row of the name column prints for a word. -/
def rowText (w : Word) (p : PrintedRow) : String × List Operand :=
  (p.name, p.operands.map (PrintedField.operand w))

/-- The text of the first row of the name column whose test is the one of the instruction's row. -/
def printedText (w : Word) (i : Instr) : Option (String × List Operand) :=
  (printedRows.find? (·.row = i.opcodeRow)).map (rowText w)

theorem printedRows_rows : printedRows.map PrintedRow.row = opcodeMap := rfl

/-- The test of a row tells it from every other. -/
theorem printedRows_row_injective {p q : PrintedRow} (hp : p ∈ printedRows) (hq : q ∈ printedRows) (h : p.row = q.row) :
    p = q := by
  have hnodup : (printedRows.map PrintedRow.row).Nodup := by
    rw [printedRows_rows]
    decide
  exact List.inj_on_of_nodup_map hnodup hp hq h

theorem printedText_of_mem {p : PrintedRow} {i : Instr} (hp : p ∈ printedRows) (hrow : i.opcodeRow = p.row) (w : Word) :
    printedText w i = some (rowText w p) := by
  cases hfind : printedRows.find? (·.row = i.opcodeRow) with
  | none => exact absurd (decide_eq_true hrow.symm) (List.find?_eq_none.mp hfind p hp)
  | some q =>
    have hq : q.row = p.row := by simpa [hrow] using List.find?_some hfind
    obtain rfl := printedRows_row_injective (List.mem_of_find?_eq_some hfind) hp hq
    simp only [printedText, hfind, Option.map_some]

/-- What the decoder may answer for `w`: an instruction that prints as its row does for `w`, or row 35, or none. -/
def AnswerPrints (w : Word) : Except Reject Instr → Prop
  | .ok i => printedText w i = some (instrMnemonic i) ∨ ∃ nnn, i = .sysAddr nnn
  | .error _ => True

theorem decodeFamily0_prints (w : Word) : AnswerPrints w (decodeFamily0 w) := by
  unfold decodeFamily0
  split
  case isTrue => exact .inl rfl
  case isFalse =>
    split
    case isTrue => exact .inl rfl
    case isFalse => exact .inr ⟨_, rfl⟩

theorem decodeFamily8_prints (w : Word) : AnswerPrints w (decodeFamily8 w) := by
  unfold decodeFamily8
  split
  case h_10 => trivial
  all_goals exact .inl rfl

theorem decodeFamilyE_prints (w : Word) : AnswerPrints w (decodeFamilyE w) := by
  unfold decodeFamilyE
  split
  case h_3 => trivial
  all_goals exact .inl rfl

theorem decodeFamilyF_prints (w : Word) : AnswerPrints w (decodeFamilyF w) := by
  unfold decodeFamilyF
  split
  case h_10 => trivial
  all_goals exact .inl rfl

/-- Families 5 and 9: one row, keyed on N = 0 (R83). -/
theorem ite_fieldN_prints {w : Word} {i : Instr} (hi : printedText w i = some (instrMnemonic i)) :
    AnswerPrints w (if fieldN w = 0#4 then .ok i else .error (.unmapped w)) := by
  split
  case isTrue => exact .inl hi
  case isFalse => trivial

theorem decode_prints (w : Word) : AnswerPrints w (decode w) := by
  unfold decode
  split
  case h_1 => exact decodeFamily0_prints w
  case h_6 => exact ite_fieldN_prints rfl
  case h_9 => exact decodeFamily8_prints w
  case h_10 => exact ite_fieldN_prints rfl
  case h_15 => exact decodeFamilyE_prints w
  case h_16 => exact decodeFamilyF_prints w
  all_goals exact .inl rfl

variable {w : Word}

/-- A word of a row prints as the row does. -/
theorem mnemonic_of_row_matches {p : PrintedRow} (hp : p ∈ printedRows) (hw : p.row.Matches w) : mnemonic w = rowText w p := by
  have hrow : p.row ∈ opcodeMap := printedRows_rows ▸ List.mem_map_of_mem hp
  obtain ⟨i, hi, hip⟩ := decode_of_row_matches hrow hw
  have hans := decode_prints w
  rw [hi] at hans
  obtain htext | ⟨nnn, rfl⟩ := hans
  · have hsome : some (instrMnemonic i) = some (rowText w p) := htext.symm.trans (printedText_of_mem hp hip w)
    simpa only [mnemonic, hi] using Option.some.inj hsome
  · exact absurd (hip ▸ hrow) (sysAddr_opcodeRow_not_mem nnn)

/-- A word of no row, 0NNN too, prints as itself. -/
theorem mnemonic_of_no_row (h : ∀ r ∈ opcodeMap, ¬ r.Matches w) : mnemonic w = ("UNMAPPED", [.word w]) := by
  obtain he | ⟨nnn, hs⟩ := decode_unmapped_of_no_row h
  · simp only [mnemonic, he]
  · simp only [mnemonic, hs, instrMnemonic, encode_of_decode_eq_sysAddr hs]

/-- No row of R84 has the name UNMAPPED. -/
theorem mnemonic_unmapped_iff : (mnemonic w).1 = "UNMAPPED" ↔ ∀ r ∈ opcodeMap, ¬ r.Matches w := by
  refine ⟨fun hname r hr hw => ?_, fun h => by rw [mnemonic_of_no_row h]⟩
  obtain ⟨p, hp, rfl⟩ := List.mem_map.mp (printedRows_rows ▸ hr)
  have hnames : ∀ q ∈ printedRows, q.name ≠ "UNMAPPED" := by decide
  rw [mnemonic_of_row_matches hp hw] at hname
  exact hnames p hp hname

/-- Settles O5: what the port prints is fixed by the row that dispatch selects, and by the word alone when there is none. -/
theorem mnemonicAgreesWithDispatch : Obligations.MnemonicAgreesWithDispatch := by
  refine ⟨printedRows_rows, fun w => ⟨fun p hp hw => ⟨?_, mnemonic_of_row_matches hp hw⟩, mnemonic_unmapped_iff, fun hname => ?_⟩⟩
  · exact decode_of_row_matches (printedRows_rows ▸ List.mem_map_of_mem hp) hw
  · rw [mnemonic_of_no_row (mnemonic_unmapped_iff.mp hname)]

end Sys2Proof.Machine

/-! ### The frames of the remaining pieces of state (spec 40_engine.md R105) -/

namespace Sys2Proof.Machine

variable {s t u : State}

theorem Part.Same.trans {p : Part} (hst : Part.Same s t p) (htu : Part.Same t u p) : Part.Same s u p := by
  cases p with
  | stack => exact ⟨htu.1.trans hst.1, fun k hk => (htu.2 k hk).trans (hst.2 k hk)⟩
  | display => exact fun x y => (htu x y).trans (hst x y)
  | memory | keys => exact fun a => (htu a).trans (hst a)
  | index | pc | delayTimer | soundTimer | romImage | config | soundOut | draws => exact Eq.trans htu hst

/-- Two frames one after the other list what either lists. -/
theorem Completes.trans {regs₁ regs₂ : List Reg} {parts₁ parts₂ : List Part} (hst : Completes regs₁ parts₁ s t)
    (htu : Completes regs₂ parts₂ t u) : Completes (regs₁ ++ regs₂) (parts₁ ++ parts₂) s u := by
  obtain ⟨⟨hregs₁, hparts₁⟩, -, hseen₁⟩ := hst
  obtain ⟨⟨hregs₂, hparts₂⟩, hok, hseen₂⟩ := htu
  refine ⟨⟨fun r hr => ?_, fun p hp => ?_⟩, hok, hseen₂.trans hseen₁⟩
  · rw [List.mem_append, not_or] at hr
    exact (hregs₂ r hr.2).trans (hregs₁ r hr.1)
  · rw [List.mem_append, not_or] at hp
    exact (hparts₁ p hp.1).trans (hparts₂ p hp.2)

/-- The frame of an instruction that writes pieces of state of one field each: those not listed must be the old ones. -/
theorem completes_fields {parts : List Part} (s : State) {stack : Vector Word 12} {dt st : Byte} {mem : Memory} {draws : Nat}
    (hstack : .stack ∉ parts → stack = s.stack) (hdt : .delayTimer ∉ parts → dt = s.dt)
    (hst : .soundTimer ∉ parts → st = s.st) (hmem : .memory ∉ parts → mem = s.mem)
    (hdraws : .draws ∉ parts → draws = s.draws) :
    Completes [] parts s
      ({ s with stack := stack, dt := dt, st := st, mem := mem, draws := draws } : State).complete := by
  refine ⟨⟨fun _ _ => rfl, fun p hp => ?_⟩, rfl, rfl⟩
  cases p with
  | stack => exact ⟨rfl, fun k hk => by simp only [State.complete_stack, hstack hp]⟩
  | delayTimer => exact hdt hp
  | soundTimer => exact hst hp
  | memory => exact State.byteAt_congr rfl (hmem hp)
  | draws => exact hdraws hp
  | display => exact fun _ _ => rfl
  | keys => exact fun _ => rfl
  | pc | index | romImage | config | soundOut => exact rfl

theorem completes_stack (s : State) (stack : Vector Word 12) :
    Completes [] [.stack] s ({ s with stack := stack } : State).complete :=
  completes_fields s (absurd (by decide)) (fun _ => rfl) (fun _ => rfl) (fun _ => rfl) (fun _ => rfl)

theorem completes_delayTimer (s : State) (b : Byte) :
    Completes [] [.delayTimer] s ({ s with dt := b } : State).complete :=
  completes_fields s (fun _ => rfl) (absurd (by decide)) (fun _ => rfl) (fun _ => rfl) (fun _ => rfl)

theorem completes_soundTimer (s : State) (b : Byte) :
    Completes [] [.soundTimer] s ({ s with st := b } : State).complete :=
  completes_fields s (fun _ => rfl) (fun _ => rfl) (absurd (by decide)) (fun _ => rfl) (fun _ => rfl)

theorem completes_memory (s : State) (mem : Memory) :
    Completes [] [.memory] s ({ s with mem := mem } : State).complete :=
  completes_fields s (fun _ => rfl) (fun _ => rfl) (fun _ => rfl) (absurd (by decide)) (fun _ => rfl)

theorem completes_draws (s : State) (draws : Nat) :
    Completes [] [.draws] s ({ s with draws := draws } : State).complete :=
  completes_fields s (fun _ => rfl) (fun _ => rfl) (fun _ => rfl) (fun _ => rfl) (absurd (by decide))

/-- Nothing but the report. -/
theorem completes_nothing (s : State) : Completes [] [] s s.complete :=
  completes_fields s (fun _ => rfl) (fun _ => rfl) (fun _ => rfl) (fun _ => rfl) (fun _ => rfl)

end Sys2Proof.Machine

/-! ### The step (spec 40_engine.md R100, R101, R106, R107) -/

namespace Sys2Proof.Machine

/-- The fetched word in numbers, the byte at the lower address the high one (R58). -/
theorem wordOfBytes_toNat (hi lo : Byte) : (wordOfBytes hi lo).toNat = 256 * hi.toNat + lo.toNat := by
  rw [wordOfBytes, append_toNat]
  omega

/-- A PC that may be fetched from (R101). -/
theorem fetch_of_lt {s : State} (hpc : s.pc.toNat + 1 < memSize) (hodd : s.pc.toNat % 2 = 0 ∨ s.config.oddPc = .fetch) :
    fetch s = .ok (wordOfBytes (s.byteAt s.pc.toNat) (s.byteAt (s.pc.toNat + 1))) := by
  obtain ⟨⟨hone, hfault⟩, -⟩ | ⟨-, hpast, -⟩ | ⟨-, -, hfetch⟩ := fetch_cases s
  · obtain heven | hpolicy := hodd
    · omega
    · cases hpolicy.symm.trans hfault
  · omega
  · exact hfetch

theorem step_of_fetch_error {s : State} {d : Diagnostic} (h : fetch s = .error d) : step s = .next (s.raise d) := by
  simp only [step, h]

/-- Settles O6: the fetch passes its checks and reads the word, which decodes. -/
theorem stepRunsDecodedInstruction : Obligations.StepRunsDecodedInstruction := by
  intro s w i hpc hodd hw hd
  have hfetch : fetch s = .ok w := by
    rw [fetch_of_lt hpc hodd]
    exact congrArg Except.ok (BitVec.eq_of_toNat_eq ((wordOfBytes_toNat _ _).trans hw.symm))
  refine ⟨step_of_decode_ok hfetch hd, ?_⟩
  rw [BitVec.toNat_add, show (2 : Word).toNat = 2 from rfl]
  omega

/-- Settles O7: by the two checks of the fetch, in their order. -/
theorem fetchFaultChangesNothing : Obligations.FetchFaultChangesNothing := by
  refine fun s => ⟨fun hodd hfault => ?_, fun haligned hpast => ?_⟩
  · obtain ⟨-, hfetch⟩ | ⟨haligned, -⟩ | ⟨haligned, -⟩ := fetch_cases s
    · exact ⟨_, step_of_fetch_error hfetch, onlyReports_raise _ s⟩
    · exact absurd ⟨hodd, hfault⟩ haligned
    · exact absurd ⟨hodd, hfault⟩ haligned
  · obtain ⟨hodd, -⟩ | ⟨-, -, hfetch⟩ | ⟨-, hpc, -⟩ := fetch_cases s
    · exact absurd hodd haligned
    · exact ⟨_, step_of_fetch_error hfetch, onlyReports_raise _ s⟩
    · exact absurd hpast (Nat.not_le.mpr hpc)

/-- Settles O9: the arm of row 35 is the report of the word it encodes as. -/
theorem sysAddrReportsItsWord : Obligations.SysAddrReportsItsWord := fun nnn s =>
  ⟨_, exec_sysAddr nnn s, onlyReports_raise _ s⟩

/-- Everything a step's next state can be: a diagnostic taken before or after the fetch advance, or what an instruction
leaves (R101, R106). -/
theorem step_next_cases {s t : State} (h : step s = .next t) :
    (∃ d, t = s.raise d) ∨ (∃ d, t = s.advance.raise d) ∨ ∃ i, exec i s.advance = .next t := by
  obtain ⟨d, -, hs⟩ | ⟨w, -, -, -, hs⟩ | ⟨-, i, -, -, hs⟩ := step_cases s
  · exact .inl ⟨d, Host.Outcome.next.inj (h.symm.trans hs)⟩
  · exact .inr (.inl ⟨_, Host.Outcome.next.inj (h.symm.trans hs)⟩)
  · exact .inr (.inr ⟨i, hs.symm.trans h⟩)

/-- Settles O11: a step completes, or raises one diagnostic. -/
theorem stepReportsOneStatus : Obligations.StepReportsOneStatus := by
  intro s t h
  obtain ⟨u, hu⟩ | ⟨d, hd | hd⟩ := step_completes_or_raises s
  · obtain rfl := Host.Outcome.next.inj (hu.symm.trans h)
    exact .inl u.complete_report
  · obtain rfl := Host.Outcome.next.inj (hd.symm.trans h)
    exact .inr ⟨d, s.raise_report d⟩
  · obtain rfl := Host.Outcome.next.inj (hd.symm.trans h)
    exact .inr ⟨d, s.advance.raise_report d⟩

/-- Settles O12: an instruction whose report is a diagnostic did not complete, so it raised on the state it was given. -/
theorem raisingInstructionWritesNothing : Obligations.RaisingInstructionWritesNothing := by
  intro i s t d h hreport
  obtain ⟨u, hu⟩ | ⟨e, he⟩ := exec_completes_or_raises i s
  · obtain rfl := Host.Outcome.next.inj (hu.symm.trans h)
    cases u.complete_report.symm.trans hreport
  · obtain rfl := Host.Outcome.next.inj (he.symm.trans h)
    obtain rfl : e = d := by simpa using hreport
    exact ⟨onlyReports_raise e s, s.raise_diagSeen e⟩

/-- Settles O19: RET pops the slot CALL has pushed, so PC and SP are the old ones and only the stack is left changed. -/
theorem callThenRetReturns : Obligations.CallThenRetReturns := by
  intro nnn s h
  have hpop : (s.stack.set s.sp.val s.pc h)[s.sp.val] = s.pc := Vector.getElem_set_self h
  refine ⟨_, _, exec_callAddr_of_lt nnn h, exec_ret_of_pos (Nat.succ_pos _), hpop, rfl, ?_⟩
  show Completes [] [.stack] s ({ s with
    pc := (s.stack.set s.sp.val s.pc h)[s.sp.val], stack := s.stack.set s.sp.val s.pc h } : State).complete
  rw [hpop]
  exact completes_stack s _

end Sys2Proof.Machine

/-! ### Logic and random bytes (spec 42_alu.md R143 to R145, R151) -/

namespace Sys2Proof.Machine

theorem exec_orVxVy (x y : Reg) (s : State) : exec (.orVxVy x y) s = finish (s.setReg x (s.reg x ||| s.reg y)) := rfl

theorem exec_andVxVy (x y : Reg) (s : State) : exec (.andVxVy x y) s = finish (s.setReg x (s.reg x &&& s.reg y)) := rfl

theorem exec_xorVxVy (x y : Reg) (s : State) : exec (.xorVxVy x y) s = finish (s.setReg x (s.reg x ^^^ s.reg y)) := rfl

/-- A register write, bit by bit. -/
theorem finish_setReg_bits (s : State) (x : Reg) {b : Byte} {bit : Nat → Bool} (hb : ∀ k, b.getLsbD k = bit k) :
    ∃ t, finish (s.setReg x b) = .next t ∧ (∀ k, (t.reg x).getLsbD k = bit k) ∧ Completes [x] [] s t := by
  obtain ⟨t, ht, hx, hframe⟩ := finish_setReg s x b
  exact ⟨t, ht, fun k => hx ▸ hb k, hframe⟩

/-- Settles O26: each is one register write, of a bitwise result. -/
theorem logicWritesBitsAndNoFlag : Obligations.LogicWritesBitsAndNoFlag := by
  intro x y s
  rw [exec_orVxVy, exec_andVxVy, exec_xorVxVy]
  exact ⟨finish_setReg_bits s x fun _ => BitVec.getLsbD_or, finish_setReg_bits s x fun _ => BitVec.getLsbD_and,
    finish_setReg_bits s x fun _ => BitVec.getLsbD_xor⟩

theorem exec_rndVxByte (x : Reg) (nn : Byte) (s : State) : exec (.rndVxByte x nn) s =
    .next ({ s.setReg x (Config.rand s.draws &&& nn) with draws := s.draws + 1 } : State).complete := rfl

theorem completes_setReg_draws (s : State) (x : Reg) (b : Byte) (draws : Nat) :
    Completes [x] [.draws] s ({ s.setReg x b with draws := draws } : State).complete :=
  (completes_setReg s x b).trans (completes_draws (s.setReg x b).complete draws)

/-- Settles O30: the byte drawn, masked, and one draw more. -/
theorem randomByteIsMasked : Obligations.RandomByteIsMasked := by
  intro x nn s
  have hx : ∀ draws, ({ s.setReg x (Config.rand s.draws &&& nn) with draws := draws } : State).complete.reg x =
      Config.rand s.draws &&& nn := fun _ => s.reg_setReg_self x _
  refine ⟨_, exec_rndVxByte x nn s, fun k => ?_, ?_, rfl, completes_setReg_draws s x _ _⟩
  · rw [hx, BitVec.getLsbD_and]
  · rw [hx, BitVec.toNat_and]
    exact Nat.and_le_right

end Sys2Proof.Machine

/-! ### Index and memory transfers (spec 43_index_memory.md R171, R174 to R176) -/

namespace Sys2Proof.Machine

theorem exec_addIVx (x : Reg) (s : State) :
    exec (.addIVx x) s = .next ({ s with index := s.index + zextByte (s.reg x) } : State).complete := rfl

/-- Settles O32: a sum of 16-bit words. -/
theorem addToIndexWrapsAtSixteenBits : Obligations.AddToIndexWrapsAtSixteenBits := fun x s =>
  ⟨_, exec_addIVx x s, (BitVec.toNat_add _ _).trans (by rw [zextByte_toNat]), completes_index s _⟩

/-! #### Stores -/

/-- The state with bytes stored from I on. -/
def State.storeAtIndex (s : State) (bs : List Byte) : State :=
  { s with mem := Memory.writeBytes s.config s.mem s.index.toNat bs }

theorem exec_ldBVx (x : Reg) (s : State) :
    exec (.ldBVx x) s = conclude s (memWrite s s.index.toNat (decimalDigits (s.reg x))) := rfl

theorem exec_ldIndVx (x : Reg) (s : State) : exec (.ldIndVx x) s = conclude s (memWrite s s.index.toNat (s.regsTo x)) := rfl

theorem decimalDigits_ne_nil (b : Byte) : decimalDigits b ≠ [] := List.cons_ne_nil _ _

theorem State.regsTo_ne_nil (s : State) (x : Reg) : s.regsTo x ≠ [] :=
  List.ne_nil_of_length_pos (s.regsTo_length x ▸ Nat.succ_pos _)

section Store

variable {s : State} {bs : List Byte}

/-- Everything a store of at least one byte at I can do (R55, R56). -/
theorem conclude_memWrite_cases (hbs : bs ≠ []) :
    (s.index.toNat + bs.length ≤ 4096 ∧ (0x1FF < s.index.toNat ∨ s.config.glyphStore = .allow) ∧
      conclude s (memWrite s s.index.toNat bs) = .next (s.storeAtIndex bs).complete) ∨
    ∃ d, conclude s (memWrite s s.index.toNat bs) = .next (s.raise d) := by
  obtain ⟨hrange, hglyph, hw⟩ | ⟨-, hw⟩ | ⟨-, -, -, hw⟩ := memWrite_cases s s.index.toNat hbs
  · exact .inl ⟨hrange, hglyph, conclude_ok hw⟩
  · exact .inr ⟨_, conclude_error hw⟩
  · exact .inr ⟨_, conclude_error hw⟩

/-- A store that passes its two checks (R55, R56). -/
theorem conclude_memWrite_of_fits (hbs : bs ≠ []) (hrange : s.index.toNat + bs.length ≤ 4096)
    (hglyph : 0x1FF < s.index.toNat ∨ s.config.glyphStore = .allow) :
    conclude s (memWrite s s.index.toNat bs) = .next (s.storeAtIndex bs).complete := by
  obtain ⟨-, -, hw⟩ | ⟨hpast, -⟩ | ⟨-, hlow, hfault, -⟩ := memWrite_cases s s.index.toNat hbs
  · exact conclude_ok hw
  · exact absurd hrange (Nat.not_le.mpr hpast)
  · obtain habove | hallow := hglyph
    · exact absurd hlow (Nat.not_le.mpr habove)
    · cases hallow.symm.trans hfault

/-- A store that leaves memory (R55). -/
theorem conclude_memWrite_of_past (hbs : bs ≠ []) (hpast : 4096 < s.index.toNat + bs.length) :
    conclude s (memWrite s s.index.toNat bs) = .next (s.raise (.addressFault (max s.index.toNat 4096) .write)) := by
  obtain ⟨hrange, -⟩ | ⟨-, hw⟩ | ⟨hrange, -⟩ := memWrite_cases s s.index.toNat hbs
  · exact absurd hrange (Nat.not_le.mpr hpast)
  · exact conclude_error hw
  · exact absurd hrange (Nat.not_le.mpr hpast)

/-- A store that starts in the protected glyph region and stays in memory (R56). -/
theorem conclude_memWrite_of_glyph (hbs : bs ≠ []) (hrange : s.index.toNat + bs.length ≤ 4096)
    (hlow : s.index.toNat ≤ 0x1FF) (hfault : s.config.glyphStore = .fault) :
    conclude s (memWrite s s.index.toNat bs) = .next (s.raise (.addressFault s.index.toNat .write)) := by
  obtain ⟨-, habove | hallow, -⟩ | ⟨hpast, -⟩ | ⟨-, -, -, hw⟩ := memWrite_cases s s.index.toNat hbs
  · exact absurd hlow (Nat.not_le.mpr habove)
  · cases hallow.symm.trans hfault
  · exact absurd hrange (Nat.not_le.mpr hpast)
  · exact conclude_error hw

/-- Byte k of a store is at I + k. -/
theorem byteAt_storeAtIndex (hs : s.Inv) {k : Nat} (hk : k < bs.length) :
    (s.storeAtIndex bs).byteAt (s.index.toNat + k) = bs[k] := by
  refine (Memory.read_writeBytes hs.memory.1 _ _ bs).trans ?_
  rw [dif_pos ⟨Nat.le_add_right _ _, Nat.add_lt_add_left hk _⟩]
  simp only [Nat.add_sub_cancel_left]

theorem sameMemoryOutside_storeAtIndex (hs : s.Inv) (bs : List Byte) :
    SameMemoryOutside s.index.toNat bs.length s (s.storeAtIndex bs).complete := fun a ha =>
  (Memory.read_writeBytes hs.memory.1 _ a bs).trans (dif_neg ha)

theorem completes_storeAtIndex (s : State) (bs : List Byte) : Completes [] [.memory] s (s.storeAtIndex bs).complete :=
  completes_memory s _

end Store

/-- Settles O33: the bytes stored are the three digits. -/
theorem decimalStoreWritesThreeDigits : Obligations.DecimalStoreWritesThreeDigits := by
  intro x s hs hrange hglyph
  have hdigits : ∀ k (hk : k < 3), ((s.storeAtIndex (decimalDigits (s.reg x))).byteAt (s.index.toNat + k)).toNat =
      ((decimalDigits (s.reg x)).map BitVec.toNat)[k]'(by simpa using hk) := fun k hk => by
    rw [byteAt_storeAtIndex hs (by simpa using hk), List.getElem_map]
  simp only [decimalDigits_toNat] at hdigits
  rw [exec_ldBVx]
  exact ⟨_, conclude_memWrite_of_fits (decimalDigits_ne_nil _) hrange hglyph, hdigits 0 (by decide), hdigits 1 (by decide),
    hdigits 2 (by decide), sameMemoryOutside_storeAtIndex hs (decimalDigits (s.reg x)), completes_storeAtIndex s _⟩

/-- A register store that passes its checks (R175). -/
theorem exec_ldIndVx_of_fits {s : State} {x : Reg} (hrange : s.index.toNat + x.val + 1 ≤ 4096)
    (hglyph : 0x1FF < s.index.toNat ∨ s.config.glyphStore = .allow) :
    exec (.ldIndVx x) s = .next (s.storeAtIndex (s.regsTo x)).complete :=
  conclude_memWrite_of_fits (s.regsTo_ne_nil x) (by rw [s.regsTo_length x]; omega) hglyph

theorem byteAt_storeAtIndex_regsTo {s : State} (hs : s.Inv) {x k : Reg} (hk : k ≤ x) :
    (s.storeAtIndex (s.regsTo x)).byteAt (s.index.toNat + k.val) = s.reg k := by
  have hlen : k.val < (s.regsTo x).length := s.regsTo_length x ▸ Nat.lt_succ_of_le hk
  rw [byteAt_storeAtIndex hs hlen, s.regsTo_getElem x k.val hlen]

/-- Settles O34: the bytes stored are the registers. -/
theorem registerStoreWritesV0ToVx : Obligations.RegisterStoreWritesV0ToVx := fun x s hs hrange hglyph =>
  ⟨_, exec_ldIndVx_of_fits hrange hglyph, fun _ hk => byteAt_storeAtIndex_regsTo hs hk,
    s.regsTo_length x ▸ sameMemoryOutside_storeAtIndex hs (s.regsTo x), completes_storeAtIndex s _⟩

/-- Settles O35: both stores raise by the same two checks, of 3 and of X + 1 bytes. -/
theorem badStoresRaiseAndStoreNothing : Obligations.BadStoresRaiseAndStoreNothing := by
  intro x s
  have hx := x.isLt
  have hlen := s.regsTo_length x
  rw [exec_ldBVx, exec_ldIndVx]
  refine ⟨fun hpast => ?_, fun hlow hfault => ?_, fun hpast => ?_, fun hlow hfault => ?_⟩
  · exact ⟨_, conclude_memWrite_of_past (decimalDigits_ne_nil _) hpast, onlyReports_raise _ s⟩
  · exact ⟨_, conclude_memWrite_of_glyph (decimalDigits_ne_nil _) (by rw [decimalDigits_length]; omega) hlow hfault,
      onlyReports_raise _ s⟩
  · exact ⟨_, conclude_memWrite_of_past (s.regsTo_ne_nil x) (by omega), onlyReports_raise _ s⟩
  · exact ⟨_, conclude_memWrite_of_glyph (s.regsTo_ne_nil x) (by omega) hlow hfault, onlyReports_raise _ s⟩

/-- A store that completes has passed its checks. -/
theorem eq_storeAtIndex_of_completes {s t : State} {bs : List Byte} (hbs : bs ≠ [])
    (h : conclude s (memWrite s s.index.toNat bs) = .next t) (hok : t.report = [.ok]) :
    t = (s.storeAtIndex bs).complete := by
  obtain ⟨-, -, hstore⟩ | ⟨d, hraise⟩ := conclude_memWrite_cases hbs
  · exact Host.Outcome.next.inj (h.symm.trans hstore)
  · obtain rfl := Host.Outcome.next.inj (h.symm.trans hraise)
    cases (s.raise_report d).symm.trans hok

/-- Settles O37: the fetch reads memory, where the store has put the registers. -/
theorem storeIsSeenByTheNextFetch : Obligations.StoreIsSeenByTheNextFetch := by
  intro x a b s t hs h hok hpc heven ha hb hbx
  obtain rfl := eq_storeAtIndex_of_completes (s.regsTo_ne_nil x) (exec_ldIndVx x s ▸ h) hok
  have hax : a ≤ x := Fin.le_def.mpr (by have := Fin.le_def.mp hbx; omega)
  have hhi : (s.storeAtIndex (s.regsTo x)).complete.byteAt s.pc.toNat = s.reg a := by
    rw [ha]
    exact byteAt_storeAtIndex_regsTo hs hax
  have hlo : (s.storeAtIndex (s.regsTo x)).complete.byteAt (s.pc.toNat + 1) = s.reg b := by
    rw [ha, Nat.add_assoc, ← hb]
    exact byteAt_storeAtIndex_regsTo hs hbx
  refine ⟨_, fetch_of_lt hpc (.inl heven), (wordOfBytes_toNat _ _).trans ?_⟩
  exact congrArg₂ (fun p q : Byte => 256 * p.toNat + q.toNat) hhi hlo

/-! #### Loads -/

/-- The bytes from I on. -/
def State.bytesAtIndex (s : State) (n : Nat) : List Byte := (List.range n).map fun k => s.byteAt (s.index.toNat + k)

@[simp] theorem State.bytesAtIndex_length (s : State) (n : Nat) : (s.bytesAtIndex n).length = n := by
  simp [State.bytesAtIndex]

theorem State.bytesAtIndex_getElem (s : State) {n k : Nat} (hk : k < n) :
    (s.bytesAtIndex n)[k]'(by simpa using hk) = s.byteAt (s.index.toNat + k) := by
  simp [State.bytesAtIndex]

theorem memRead_of_fits {s : State} {n : Nat} (h : n = 0 ∨ s.index.toNat + n ≤ 4096) :
    memRead s s.index.toNat n = .ok (s.bytesAtIndex n) := by
  obtain ⟨-, hr⟩ | ⟨hn, hpast, -⟩ := memRead_cases s s.index.toNat n
  · exact hr
  · obtain h0 | hrange := h
    · exact absurd h0 hn
    · exact absurd hrange (Nat.not_le.mpr hpast)

theorem memRead_of_past {s : State} {n : Nat} (hn : n ≠ 0) (hpast : 4096 < s.index.toNat + n) :
    memRead s s.index.toNat n = .error (.addressFault (max s.index.toNat 4096) .read) := by
  obtain ⟨h0 | hrange, -⟩ | ⟨-, -, hr⟩ := memRead_cases s s.index.toNat n
  · exact absurd h0 hn
  · exact absurd hrange (Nat.not_le.mpr hpast)
  · exact hr

theorem exec_ldVxInd_of_fits {s : State} {x : Reg} (h : s.index.toNat + x.val + 1 ≤ 4096) :
    exec (.ldVxInd x) s = .next ({ s with v := loadRegs 0 (s.bytesAtIndex (x.val + 1)) s.v } : State).complete :=
  conclude_ok (by rw [State.base, memRead_of_fits (.inr h)])

theorem exec_ldVxInd_of_past {s : State} {x : Reg} (h : 4096 < s.index.toNat + x.val + 1) :
    exec (.ldVxInd x) s = .next (s.raise (.addressFault (max s.index.toNat 4096) .read)) :=
  conclude_error (by rw [State.base, memRead_of_past (Nat.succ_ne_zero _) h])

/-- A block load writes V0 to VX (R176). -/
theorem loadRegs_bytesAtIndex (s : State) (x r : Reg) :
    (loadRegs 0 (s.bytesAtIndex (x.val + 1)) s.v)[r] = if r ≤ x then s.byteAt (s.index.toNat + r.val) else s.reg r := by
  refine (loadRegs_getElem 0 _ s.v r.val r.isLt).trans ?_
  by_cases hr : r ≤ x
  · have hlt : r.val < x.val + 1 := Nat.lt_succ_of_le hr
    rw [dif_pos ⟨Nat.zero_le _, by simpa using hlt⟩, if_pos hr]
    exact s.bytesAtIndex_getElem hlt
  · have hnot : ¬ r.val < x.val + 1 := fun h => hr (Nat.le_of_lt_succ h)
    rw [dif_neg (by simpa using hnot), if_neg hr]
    rfl

theorem completes_loadRegs (s : State) (x : Reg) : Completes ((List.finRange 16).filter (· ≤ x)) [] s
    ({ s with v := loadRegs 0 (s.bytesAtIndex (x.val + 1)) s.v } : State).complete :=
  completes_regs fun r hr => (loadRegs_bytesAtIndex s x r).trans (if_neg (by simpa using hr))

/-- Settles O36: by whether the block fits in memory. -/
theorem registerLoadReadsV0ToVx : Obligations.RegisterLoadReadsV0ToVx := fun x s =>
  ⟨fun h => ⟨_, exec_ldVxInd_of_fits h, fun k hk => (loadRegs_bytesAtIndex s x k).trans (if_pos hk), completes_loadRegs s x⟩,
    fun h => ⟨_, exec_ldVxInd_of_past h, onlyReports_raise _ s⟩⟩

end Sys2Proof.Machine

/-! ### Sprites (spec 44_display.md R191 to R195) -/

namespace Sys2Proof.Machine

/-- The sprite bits of DXYN on the pixels of the display. -/
def State.sprite (s : State) (x y : Reg) (n : Nibble) : Nat → Nat → Bool :=
  spriteBit (s.originX x) (s.originY y) (s.bytesAtIndex n.toNat)

/-- The display after DXYN, and whether a set sprite bit fell on a pixel that was on. -/
def State.drawn (s : State) (x y : Reg) (n : Nibble) : Display × Bool :=
  draw s.disp (s.originX x) (s.originY y) (s.bytesAtIndex n.toNat)

/-- The state after a DXYN that does not raise. -/
def State.afterDraw (s : State) (x y : Reg) (n : Nibble) : State :=
  { s.setReg regF (flagByte (s.drawn x y n).2) with disp := (s.drawn x y n).1 }

section Draw

variable {s t : State} {x y : Reg} {n : Nibble}

theorem exec_drw_of_fits (h : n = 0 ∨ s.index.toNat + n.toNat ≤ 4096) :
    exec (.drwVxVyNibble x y n) s = .next (s.afterDraw x y n).complete :=
  conclude_ok (by
    rw [State.base, memRead_of_fits (h.imp_left fun hn => hn ▸ rfl)]
    rfl)

theorem exec_drw_of_past (hn : n ≠ 0) (h : 4096 < s.index.toNat + n.toNat) :
    exec (.drwVxVyNibble x y n) s = .next (s.raise (.addressFault (max s.index.toNat 4096) .read)) :=
  conclude_error (by rw [State.base, memRead_of_past (fun h0 => hn (BitVec.eq_of_toNat_eq h0)) h])

/-- Everything DXYN can do. -/
theorem exec_drw_cases (h : exec (.drwVxVyNibble x y n) s = .next t) :
    ((n = 0 ∨ s.index.toNat + n.toNat ≤ 4096) ∧ t = (s.afterDraw x y n).complete) ∨
      ∃ d, t = s.raise d := by
  by_cases hfits : n = 0 ∨ s.index.toNat + n.toNat ≤ 4096
  · exact .inl ⟨hfits, Host.Outcome.next.inj (h.symm.trans (exec_drw_of_fits hfits))⟩
  · obtain ⟨hn, hpast⟩ := not_or.mp hfits
    exact .inr ⟨_, Host.Outcome.next.inj (h.symm.trans (exec_drw_of_past hn (Nat.not_le.mp hpast)))⟩

theorem pixel_afterDraw (s : State) (x y : Reg) (n : Nibble) (px py : Nat) :
    Display.pixel (s.afterDraw x y n).disp px py = (Display.pixel s.disp px py ^^ s.sprite x y n px py) :=
  (draw_spec s.disp (s.originX_lt x) (s.originY_lt y) _).1 px py

theorem drawn_collides (s : State) (x y : Reg) (n : Nibble) :
    (s.drawn x y n).2 = true ↔ Hits s.disp (s.sprite x y n) :=
  (draw_spec s.disp (s.originX_lt x) (s.originY_lt y) _).2

theorem reg_afterDraw_flag (s : State) (x y : Reg) (n : Nibble) :
    ((s.afterDraw x y n).reg 15).toNat = if (s.drawn x y n).2 then 1 else 0 :=
  (congrArg BitVec.toNat (s.reg_setReg_self regF _)).trans (flagByte_toNat _)

/-- VF after a draw is 1 exactly on a collision (R191). -/
theorem reg_afterDraw_flag_eq_one (s : State) (x y : Reg) (n : Nibble) :
    ((s.afterDraw x y n).reg 15).toNat = 1 ↔ Hits s.disp (s.sprite x y n) := by
  rw [reg_afterDraw_flag, ← drawn_collides]
  cases (s.drawn x y n).2 <;> decide

/-- VF after a draw is 0 exactly without a collision (R191). -/
theorem reg_afterDraw_flag_eq_zero (s : State) (x y : Reg) (n : Nibble) :
    ((s.afterDraw x y n).reg 15).toNat = 0 ↔ ¬ Hits s.disp (s.sprite x y n) := by
  rw [reg_afterDraw_flag, ← drawn_collides]
  cases (s.drawn x y n).2 <;> decide

theorem completes_afterDraw (s : State) (x y : Reg) (n : Nibble) :
    Completes [15] [.display] s (s.afterDraw x y n).complete :=
  (completes_setReg s regF _).trans (completes_display (s.setReg regF _).complete _)

/-- A set sprite bit falls inside the display and inside the 8 columns and N rows from the origin on (R193). -/
theorem sprite_window {px py : Nat} (h : s.sprite x y n px py = true) :
    (s.originX x ≤ px ∧ px < s.originX x + 8 ∧ px < 64) ∧ s.originY y ≤ py ∧ py < s.originY y + n.toNat ∧ py < 32 := by
  have hwindow := of_decide_eq_true ((Bool.and_eq_true _ _).mp h).1
  rwa [State.bytesAtIndex_length] at hwindow

theorem sprite_outside {px py : Nat} (h : px < s.originX x ∨ s.originX x + 8 ≤ px ∨ py < s.originY y ∨
    s.originY y + n.toNat ≤ py) : s.sprite x y n px py = false := by
  by_contra hbit
  obtain ⟨⟨hleft, hright, -⟩, htop, hbottom, -⟩ := sprite_window (Bool.eq_true_of_not_eq_false hbit)
  omega

end Draw

/-- Settles O39: the state after the draw, its pixels and its flag. -/
theorem drawXorsSpriteAndFlagsCollision : Obligations.DrawXorsSpriteAndFlagsCollision := by
  refine fun x y n s h => ⟨_, exec_drw_of_fits h, pixel_afterDraw s x y n, ?_, completes_afterDraw s x y n⟩
  by_cases hhits : Hits s.disp (s.sprite x y n)
  · exact .inl ⟨(reg_afterDraw_flag_eq_one s x y n).mpr hhits, hhits⟩
  · exact .inr ⟨(reg_afterDraw_flag_eq_zero s x y n).mpr hhits, hhits⟩

/-- Settles O40: no sprite bit falls outside the window, and a collision turns a pixel off. -/
theorem drawClipsAndNeverWraps : Obligations.DrawClipsAndNeverWraps := by
  intro x y n s t h
  obtain ⟨-, rfl⟩ | ⟨d, rfl⟩ := exec_drw_cases h
  · refine ⟨fun px py hout => (pixel_afterDraw s x y n px py).trans ?_, fun _ hflag => ?_⟩
    · rw [sprite_outside hout, Bool.xor_false]
    · obtain ⟨px, py, hbit, hon⟩ := of_not_not ((reg_afterDraw_flag_eq_zero s x y n).not.mp hflag)
      obtain ⟨⟨hleft, hright, hwidth⟩, htop, hbottom, hheight⟩ := sprite_window hbit
      refine ⟨px, py, hleft, hright, hwidth, htop, hbottom, hheight, hon, (pixel_afterDraw s x y n px py).trans ?_⟩
      rw [hbit, hon, Bool.xor_self]
  · exact ⟨fun _ _ _ => rfl, fun hok => by cases (s.raise_report d).symm.trans hok⟩

/-- Settles O41: the whole sprite is checked before anything is written. -/
theorem drawPastMemoryRaises : Obligations.DrawPastMemoryRaises := fun _ _ _ s hn h =>
  ⟨_, exec_drw_of_past hn h, onlyReports_raise _ s⟩

/-- A sprite of no rows leaves the display and sees no collision. -/
theorem afterDraw_zero (s : State) (x y : Reg) : s.afterDraw x y 0 = s.setReg regF 0 := rfl

theorem exec_drw_zero (s : State) (x y : Reg) : exec (.drwVxVyNibble x y 0) s = .next (s.setReg regF 0).complete :=
  (exec_drw_of_fits (.inl rfl)).trans (by rw [afterDraw_zero])

/-- Settles O42: the draw is one register write. -/
theorem drawOfNoRowsOnlyClearsVf : Obligations.DrawOfNoRowsOnlyClearsVf := fun x y s =>
  ⟨_, exec_drw_zero s x y, congrArg BitVec.toNat (s.reg_setReg_self regF 0), completes_setReg s regF 0⟩

/-- A draw leaves memory and I, so the same DXYN at the same origin draws the same sprite. -/
theorem sprite_afterDraw {s : State} {x y : Reg} {n : Nibble} (hx : (s.afterDraw x y n).originX x = s.originX x)
    (hy : (s.afterDraw x y n).originY y = s.originY y) : (s.afterDraw x y n).sprite x y n = s.sprite x y n := by
  have hrows : (s.afterDraw x y n).bytesAtIndex n.toNat = s.bytesAtIndex n.toNat := rfl
  rw [State.sprite, State.sprite, hx, hy, hrows]

/-- Settles O43: the same bits twice cancel, and the second draw hits the pixels the first has turned on. -/
theorem drawingTwiceRestoresTheDisplay : Obligations.DrawingTwiceRestoresTheDisplay := by
  intro x y n s t h hok hx hy
  obtain ⟨hfits, rfl⟩ | ⟨d, rfl⟩ := exec_drw_cases h
  · have hsprite : (s.afterDraw x y n).complete.sprite x y n = s.sprite x y n := sprite_afterDraw hx hy
    have hfirst : ∀ px py, Display.pixel (s.afterDraw x y n).complete.disp px py =
        (Display.pixel s.disp px py ^^ s.sprite x y n px py) := pixel_afterDraw s x y n
    refine ⟨_, exec_drw_of_fits hfits, fun px py => (pixel_afterDraw _ x y n px py).trans ?_,
      (reg_afterDraw_flag_eq_one _ x y n).trans ?_⟩
    · rw [hsprite, hfirst, Bool.xor_assoc, Bool.xor_self, Bool.xor_false]
    · rw [hsprite]
      refine exists₂_congr fun px py => and_congr_right fun hbit => ?_
      rw [hfirst, show s.sprite x y n px py = true from hbit, Bool.xor_true, Bool.not_eq_true']
  · cases (s.raise_report d).symm.trans hok

end Sys2Proof.Machine

/-! ### Keypad and timers (spec 45_keypad_timer.md R210 to R215) -/

namespace Sys2Proof.Machine

variable {s : State} {x : Reg}

theorem keyNamed_of_toNat_eq {b : Byte} {k : Fin 16} (h : b.toNat = k.val) : keyNamed s b = .ok s.key[k] := by
  obtain ⟨_, hkey⟩ | ⟨hlarge, -⟩ := keyNamed_cases s b
  · simpa only [h, Fin.getElem_fin] using hkey
  · omega

theorem keyNamed_of_lt {b : Byte} (h : 15 < b.toNat) : keyNamed s b = .error (.keyIndexFault b) := by
  obtain ⟨hsmall, -⟩ | ⟨-, hkey⟩ := keyNamed_cases s b
  · omega
  · exact hkey

theorem exec_skpVx_of_key {k : Fin 16} (h : (s.reg x).toNat = k.val) :
    exec (.skpVx x) s = .next (s.skipIf s.key[k]).complete := conclude_ok (by rw [keyNamed_of_toNat_eq h])

theorem exec_sknpVx_of_key {k : Fin 16} (h : (s.reg x).toNat = k.val) :
    exec (.sknpVx x) s = .next (s.skipIf (!s.key[k])).complete := conclude_ok (by rw [keyNamed_of_toNat_eq h])

theorem exec_skpVx_of_lt (h : 15 < (s.reg x).toNat) :
    exec (.skpVx x) s = .next (s.raise (.keyIndexFault (s.reg x))) := conclude_error (by rw [keyNamed_of_lt h])

theorem exec_sknpVx_of_lt (h : 15 < (s.reg x).toNat) :
    exec (.sknpVx x) s = .next (s.raise (.keyIndexFault (s.reg x))) := conclude_error (by rw [keyNamed_of_lt h])

/-- Settles O44: by whether VX names a latch. -/
theorem keySkipsReadTheLatch : Obligations.KeySkipsReadTheLatch := by
  refine fun x s => ⟨fun k hk => ⟨?_, ?_⟩, fun h => ⟨?_, ?_⟩⟩
  · exact ⟨_, exec_skpVx_of_key hk, s.skipIf_pc _, completes_skipIf s _⟩
  · refine ⟨_, exec_sknpVx_of_key hk, (s.skipIf_pc _).trans ?_, completes_skipIf s _⟩
    cases s.key[k] <;> rfl
  · exact ⟨_, exec_skpVx_of_lt h, onlyReports_raise _ s⟩
  · exact ⟨_, exec_sknpVx_of_lt h, onlyReports_raise _ s⟩

/-- The scan ends at the lowest pressed key (R213). -/
theorem firstPressed_of_lowest {key : Vector Bool 16} {k : Reg} (hk : key[k] = true) (hlow : ∀ j : Reg, j < k → key[j] = false) :
    firstPressed key = some k := by
  cases hfirst : firstPressed key with
  | none => exact absurd (hk.symm.trans (firstPressed_eq_none.mp hfirst k)) (by decide)
  | some j =>
    obtain ⟨hj, hjlow⟩ := firstPressed_eq_some hfirst
    obtain hlt | rfl | hgt := lt_trichotomy j k
    · exact absurd (hj.symm.trans (hlow j hlt)) (by decide)
    · rfl
    · exact absurd (hk.symm.trans (hjlow k hgt)) (by decide)

theorem exec_ldVxK_of_pressed {k : Reg} (h : firstPressed s.key = some k) :
    exec (.ldVxK x) s = finish (s.setReg x (BitVec.ofNat 8 k.val)) := by
  simp only [exec, execLdVxK, h]

theorem exec_ldVxK_of_none (h : firstPressed s.key = none) :
    exec (.ldVxK x) s = .next ({ s with pc := s.pc - 2 } : State).complete := by
  simp only [exec, execLdVxK, h, finish]

/-- Settles O45: by what the scan of the latches finds. -/
theorem keyWaitTakesLowestKeyOrRewinds : Obligations.KeyWaitTakesLowestKeyOrRewinds := by
  refine fun x s => ⟨fun k hk hlow => ?_, fun hnone => ?_⟩
  · obtain ⟨t, ht, hx, hframe⟩ := finish_setReg s x (BitVec.ofNat 8 k.val)
    refine ⟨t, (exec_ldVxK_of_pressed (firstPressed_of_lowest hk hlow)).trans ht, ?_, hframe⟩
    rw [hx, BitVec.toNat_ofNat]
    omega
  · exact ⟨_, exec_ldVxK_of_none (firstPressed_eq_none.mpr hnone), rfl, completes_pc s _⟩

/-- Settles O46: the rewind takes back the fetch advance. -/
theorem keyWaitStepStaysInPlace : Obligations.KeyWaitStepStaysInPlace := by
  intro s w x hf hd hnone
  have hexec : exec (.ldVxK x) s.advance = .next ({ s with pc := s.pc + 2 - 2 } : State).complete :=
    exec_ldVxK_of_none (firstPressed_eq_none.mpr hnone)
  rw [BitVec.add_sub_cancel] at hexec
  exact ⟨_, (step_of_decode_ok hf hd).trans hexec, completes_nothing s⟩

theorem exec_ldVxDt (x : Reg) (s : State) : exec (.ldVxDt x) s = finish (s.setReg x s.dt) := rfl

theorem exec_ldDtVx (x : Reg) (s : State) : exec (.ldDtVx x) s = .next ({ s with dt := s.reg x } : State).complete := rfl

theorem exec_ldStVx (x : Reg) (s : State) : exec (.ldStVx x) s = .next ({ s with st := s.reg x } : State).complete := rfl

/-- Settles O47: each copies one byte. -/
theorem timerTransfersCopyTheByte : Obligations.TimerTransfersCopyTheByte := by
  refine fun x s => ⟨encodesAs_ldVxDt x, encodesAs_ldDtVx x, encodesAs_ldStVx x, ?_, ?_, ?_⟩
  · rw [exec_ldVxDt]
    exact finish_setReg s x s.dt
  · exact ⟨_, exec_ldDtVx x s, rfl, completes_delayTimer s _⟩
  · exact ⟨_, exec_ldStVx x s, rfl, completes_soundTimer s _⟩

end Sys2Proof.Machine

/-! ### What each instruction may write (spec 10_state.md R21 to R31; 20_memory.md R53; 60_exceptions.md R251) -/

namespace Sys2Proof.Machine

variable {s t : State}

theorem Completes.mono {regs regs' : List Reg} {parts parts' : List Part} (h : Completes regs parts s t)
    (hregs : regs ⊆ regs') (hparts : parts ⊆ parts') : Completes regs' parts' s t :=
  ⟨⟨fun r hr => h.1.1 r fun hmem => hr (hregs hmem), fun p hp => h.1.2 p fun hmem => hp (hparts hmem)⟩, h.2⟩

/-- What an instruction that raises nothing has done: it kept its frame and reported OK, and if it is a store it passed the
checks of R55 and R56. -/
structure Effect (i : Instr) (s t : State) : Prop where
  frame : Completes (mayWriteRegs i) (mayWriteParts i) s t
  memory : t.mem = s.mem ∨ ∃ bs : List Byte, s.index.toNat + bs.length ≤ 4096 ∧
    (0x1FF < s.index.toNat ∨ s.config.glyphStore = .allow) ∧ t.mem = (s.storeAtIndex bs).mem

theorem pc_stack_subset : [Part.pc, Part.stack] ⊆ [Part.stack, Part.pc] := by decide

/-- Everything an instruction can do, with its frame: each arm by the frame of the pieces of state it writes. -/
theorem exec_cases (i : Instr) (s : State) :
    (∃ t, exec i s = .next t ∧ Effect i s t) ∨ ∃ d, exec i s = .next (s.raise d) := by
  cases i with
  | cls => exact .inl ⟨_, exec_cls s, completes_display s _, .inl rfl⟩
  | ret =>
    obtain h0 | hpos := Nat.eq_zero_or_pos s.sp.val
    · exact .inr ⟨_, exec_ret_of_zero h0⟩
    · exact .inl ⟨_, exec_ret_of_pos hpos, (completes_pc_stack s _ s.stack _).mono (List.Subset.refl _) pc_stack_subset, .inl rfl⟩
  | callAddr nnn =>
    obtain hfull | hlt := (Nat.le_of_lt_succ s.sp.isLt).eq_or_lt
    · exact .inr ⟨_, exec_callAddr_of_full nnn hfull⟩
    · exact .inl ⟨_, exec_callAddr_of_lt nnn hlt, (completes_pc_stack s _ _ _).mono (List.Subset.refl _) pc_stack_subset, .inl rfl⟩
  | jpAddr | jpV0Addr => exact .inl ⟨_, rfl, completes_pc s _, .inl rfl⟩
  | seVxByte | sneVxByte | seVxVy | sneVxVy => exact .inl ⟨_, rfl, completes_skipIf s _, .inl (s.skipIf_mem _)⟩
  | ldVxByte x | addVxByte x | ldVxVy x | orVxVy x | andVxVy x | xorVxVy x | ldVxDt x =>
    exact .inl ⟨_, rfl, completes_setReg s x _, .inl rfl⟩
  | addVxVy x | subVxVy x | shrVx x | subnVxVy x | shlVx x =>
    exact .inl ⟨_, rfl, completes_setResultAndFlag s x _ _, .inl rfl⟩
  | rndVxByte x nn => exact .inl ⟨_, exec_rndVxByte x nn s, completes_setReg_draws s x _ _, .inl rfl⟩
  | ldIAddr | addIVx | ldFVx => exact .inl ⟨_, rfl, completes_index s _, .inl rfl⟩
  | ldDtVx => exact .inl ⟨_, rfl, completes_delayTimer s _, .inl rfl⟩
  | ldStVx => exact .inl ⟨_, rfl, completes_soundTimer s _, .inl rfl⟩
  | drwVxVyNibble x y n =>
    by_cases hfits : n = 0 ∨ s.index.toNat + n.toNat ≤ 4096
    · exact .inl ⟨_, exec_drw_of_fits hfits, completes_afterDraw s x y n, .inl rfl⟩
    · obtain ⟨hn, hpast⟩ := not_or.mp hfits
      exact .inr ⟨_, exec_drw_of_past hn (Nat.not_le.mp hpast)⟩
  | skpVx x | sknpVx x =>
    cases hkey : keyNamed s (s.reg x) with
    | error d => exact .inr ⟨d, conclude_error (by rw [hkey])⟩
    | ok pressed => exact .inl ⟨_, conclude_ok (by rw [hkey]), completes_skipIf s _, .inl (s.skipIf_mem _)⟩
  | ldVxK x =>
    cases hfirst : firstPressed s.key with
    | none => exact .inl ⟨_, exec_ldVxK_of_none hfirst, (completes_pc s _).mono (List.nil_subset _) (List.Subset.refl _), .inl rfl⟩
    | some k =>
      exact .inl ⟨_, exec_ldVxK_of_pressed hfirst, (completes_setReg s x _).mono (List.Subset.refl _) (List.nil_subset _), .inl rfl⟩
  | ldBVx x =>
    obtain ⟨hrange, hglyph, hexec⟩ | hraise := conclude_memWrite_cases (decimalDigits_ne_nil (s.reg x))
    · exact .inl ⟨_, hexec, completes_storeAtIndex s _, .inr ⟨_, hrange, hglyph, rfl⟩⟩
    · exact .inr hraise
  | ldIndVx x =>
    obtain ⟨hrange, hglyph, hexec⟩ | hraise := conclude_memWrite_cases (s.regsTo_ne_nil x)
    · exact .inl ⟨_, hexec, completes_storeAtIndex s _, .inr ⟨_, hrange, hglyph, rfl⟩⟩
    · exact .inr hraise
  | ldVxInd x =>
    obtain hpast | hrange := Nat.lt_or_ge 4096 (s.index.toNat + x.val + 1)
    · exact .inr ⟨_, exec_ldVxInd_of_past hpast⟩
    · exact .inl ⟨_, exec_ldVxInd_of_fits hrange, completes_loadRegs s x, .inl rfl⟩
  | sysAddr nnn => exact .inr ⟨_, exec_sysAddr nnn s⟩

theorem exec_next_cases {i : Instr} (h : exec i s = .next t) : Effect i s t ∨ ∃ d, t = s.raise d := by
  obtain ⟨u, hu, heffect⟩ | ⟨d, hd⟩ := exec_cases i s
  · obtain rfl := Host.Outcome.next.inj (hu.symm.trans h)
    exact .inl heffect
  · exact .inr ⟨d, Host.Outcome.next.inj (h.symm.trans hd)⟩

/-- The frame of every instruction: a diagnostic writes nothing at all. -/
theorem exec_writesOnly {i : Instr} (h : exec i s = .next t) : WritesOnly (mayWriteRegs i) (mayWriteParts i) s t := by
  obtain heffect | ⟨d, rfl⟩ := exec_next_cases h
  · exact heffect.frame.1
  · obtain ⟨⟨hregs, hparts⟩, -⟩ := onlyReports_raise d s
    exact ⟨fun r _ => hregs r List.not_mem_nil, fun p _ => hparts p List.not_mem_nil⟩

/-- Settles O13: the registers of the frame of every instruction. -/
theorem registersHaveTheirWriters : Obligations.RegistersHaveTheirWriters := fun _ _ _ h => (exec_writesOnly h).1

/-- Settles O14: the other pieces of state of the frame of every instruction. -/
theorem eachPieceOfStateHasItsWriters : Obligations.EachPieceOfStateHasItsWriters := fun _ _ _ h => (exec_writesOnly h).2

/-- No instruction writes the configuration or the program image. -/
theorem not_mem_mayWriteParts (i : Instr) : .config ∉ mayWriteParts i ∧ .romImage ∉ mayWriteParts i := by
  cases i <;> simp only [mayWriteParts] <;> decide

theorem exec_config {i : Instr} (h : exec i s = .next t) : t.config = s.config :=
  (exec_writesOnly h).2 .config (not_mem_mayWriteParts i).1

theorem exec_romImage {i : Instr} (h : exec i s = .next t) : t.romImage = s.romImage :=
  (exec_writesOnly h).2 .romImage (not_mem_mayWriteParts i).2

end Sys2Proof.Machine

/-! ### What no instruction reads (spec 10_state.md R28, R30, R35) -/

namespace Sys2Proof.Machine

variable {s t : State} {stack : Vector Word 12 → Vector Word 12} {st : Byte → Byte} {image : List Byte → List Byte}

/-- Other values in the stack slots, in ST and in the program image. -/
def State.overlay (stack : Vector Word 12 → Vector Word 12) (st : Byte → Byte) (image : List Byte → List Byte)
    (s : State) : State :=
  { s with stack := stack s.stack, st := st s.st, romImage := image s.romImage }

theorem skipIf_overlay (b : Bool) :
    (s.overlay stack st image).skipIf b = (s.skipIf b).overlay stack st image := by cases b <;> rfl

/-- A store reads its bytes, memory and the configuration. -/
theorem memWrite_overlay (base : Nat) (bs : List Byte) :
    memWrite (s.overlay stack st image) base bs = (memWrite s base bs).map (State.overlay stack st image) := by
  have hconfig : (s.overlay stack st image).config = s.config := rfl
  cases hrange : checkRange base bs.length .write with
  | error d =>
    simp only [memWrite, hrange]
    rfl
  | ok _ =>
    cases hglyph : checkGlyphStore s.config.glyphStore base bs.length <;>
      (simp only [memWrite, hconfig, hrange, hglyph]; rfl)

theorem conclude_memWrite_overlay (bs : List Byte) :
    ∃ t, conclude s (memWrite s s.index.toNat bs) = .next t ∧
      conclude (s.overlay stack st image) (memWrite (s.overlay stack st image) s.index.toNat bs) =
        .next (t.overlay stack st image) := by
  rw [memWrite_overlay]
  cases memWrite s s.index.toNat bs <;> exact ⟨_, rfl, rfl⟩

/-- An instruction that writes neither the stack nor ST does the same whatever these and the program image hold. -/
theorem exec_overlay {i : Instr} (hstack : .stack ∉ mayWriteParts i) (hst : .soundTimer ∉ mayWriteParts i) :
    ∃ t, exec i s = .next t ∧ exec i (s.overlay stack st image) = .next (t.overlay stack st image) := by
  cases i with
  | ret | callAddr => exact absurd (List.mem_cons_self ..) hstack
  | ldStVx => exact absurd (List.mem_cons_self ..) hst
  | seVxByte | sneVxByte | seVxVy | sneVxVy => exact ⟨_, rfl, congrArg finish (skipIf_overlay _)⟩
  | drwVxVyNibble x y n =>
    by_cases hfits : n = 0 ∨ s.index.toNat + n.toNat ≤ 4096
    · exact ⟨_, exec_drw_of_fits hfits, exec_drw_of_fits hfits⟩
    · obtain ⟨hn, hpast⟩ := not_or.mp hfits
      exact ⟨_, exec_drw_of_past hn (Nat.not_le.mp hpast), exec_drw_of_past hn (Nat.not_le.mp hpast)⟩
  | skpVx x | sknpVx x =>
    cases hkey : keyNamed s (s.reg x) with
    | error d =>
      have hkey' : keyNamed (s.overlay stack st image) ((s.overlay stack st image).reg x) = .error d := hkey
      exact ⟨_, conclude_error (by rw [hkey]), conclude_error (by rw [hkey'])⟩
    | ok pressed =>
      have hkey' : keyNamed (s.overlay stack st image) ((s.overlay stack st image).reg x) = .ok pressed := hkey
      exact ⟨_, conclude_ok (by rw [hkey]), (conclude_ok (by rw [hkey'])).trans (congrArg finish (skipIf_overlay _))⟩
  | ldVxK x =>
    cases hfirst : firstPressed s.key with
    | none => exact ⟨_, exec_ldVxK_of_none hfirst, exec_ldVxK_of_none hfirst⟩
    | some k => exact ⟨_, exec_ldVxK_of_pressed hfirst, exec_ldVxK_of_pressed hfirst⟩
  | ldBVx | ldIndVx => exact conclude_memWrite_overlay _
  | ldVxInd x =>
    obtain hpast | hrange := Nat.lt_or_ge 4096 (s.index.toNat + x.val + 1)
    · exact ⟨_, exec_ldVxInd_of_past hpast, exec_ldVxInd_of_past hpast⟩
    · exact ⟨_, exec_ldVxInd_of_fits hrange, exec_ldVxInd_of_fits hrange⟩
  | cls | jpAddr | jpV0Addr | ldVxByte | addVxByte | ldVxVy | orVxVy | andVxVy | xorVxVy | addVxVy | subVxVy | shrVx
  | subnVxVy | shlVx | rndVxByte | ldIAddr | addIVx | ldFVx | ldVxDt | ldDtVx | sysAddr => exact ⟨_, rfl, rfl⟩

theorem exec_overlay_of_next {i : Instr} (hstack : .stack ∉ mayWriteParts i) (hst : .soundTimer ∉ mayWriteParts i)
    (h : exec i s = .next t) : exec i (s.overlay stack st image) = .next (t.overlay stack st image) := by
  obtain ⟨u, hu, hoverlay⟩ := exec_overlay (s := s) (stack := stack) (st := st) (image := image) hstack hst
  obtain rfl := Host.Outcome.next.inj (hu.symm.trans h)
  exact hoverlay

/-- RET reads the stack only, which stays. -/
theorem exec_ret_overlay : ∃ t, exec .ret s = .next t ∧ exec .ret (s.overlay id st image) = .next (t.overlay id st image) := by
  obtain h0 | hpos := Nat.eq_zero_or_pos s.sp.val
  · exact ⟨_, exec_ret_of_zero h0, exec_ret_of_zero h0⟩
  · exact ⟨_, exec_ret_of_pos hpos, exec_ret_of_pos (s := s.overlay id st image) hpos⟩

theorem exec_callAddr_overlay (nnn : Addr) : ∃ t, exec (.callAddr nnn) s = .next t ∧
    exec (.callAddr nnn) (s.overlay id st image) = .next (t.overlay id st image) := by
  obtain hfull | hlt := (Nat.le_of_lt_succ s.sp.isLt).eq_or_lt
  · exact ⟨_, exec_callAddr_of_full nnn hfull, exec_callAddr_of_full nnn hfull⟩
  · exact ⟨_, exec_callAddr_of_lt nnn hlt, exec_callAddr_of_lt (s := s.overlay id st image) nnn hlt⟩

/-- Settles O15: RET and CALL read the stack, which the two runs share; FX18 writes ST from VX; the others pass both by. -/
theorem soundTimerAndImageAreReadByNoInstruction : Obligations.SoundTimerAndImageAreReadByNoInstruction := by
  intro i s t v image h
  cases i with
  | ret =>
    obtain ⟨u, hu, hoverlay⟩ := exec_ret_overlay (s := s) (st := fun _ => v) (image := fun _ => image)
    obtain rfl := Host.Outcome.next.inj (hu.symm.trans h)
    exact hoverlay
  | callAddr nnn =>
    obtain ⟨u, hu, hoverlay⟩ := exec_callAddr_overlay (s := s) (st := fun _ => v) (image := fun _ => image) nnn
    obtain rfl := Host.Outcome.next.inj (hu.symm.trans h)
    exact hoverlay
  | ldStVx x =>
    obtain rfl := Host.Outcome.next.inj ((exec_ldStVx x s).symm.trans h)
    exact exec_ldStVx x _
  | _ =>
    exact exec_overlay_of_next (stack := id) (st := fun _ => v) (image := fun _ => image)
      (by simp only [mayWriteParts]; decide) (by simp only [mayWriteParts]; decide) h

/-- `u` is `t` but for slot k of the stack. -/
def EqualButSlot (k : Nat) (t u : State) : Prop :=
  WritesOnly [] [.stack] t u ∧ u.sp = t.sp ∧ (∀ j (_ : j < 12), j ≠ k → u.stack[j] = t.stack[j]) ∧
    u.report = t.report ∧ u.diagSeen = t.diagSeen

theorem equalButSlot {k : Nat} (t : State) {slots : Vector Word 12}
    (h : ∀ j (_ : j < 12), j ≠ k → slots[j] = t.stack[j]) : EqualButSlot k t { t with stack := slots } := by
  obtain ⟨⟨hregs, hparts⟩, -⟩ := completes_stack t slots
  exact ⟨⟨hregs, hparts⟩, rfl, h, rfl, rfl⟩

theorem equalButSlot_set (t : State) {k : Nat} (hk : k < 12) (v : Word) :
    EqualButSlot k t { t with stack := t.stack.set k v } :=
  equalButSlot t fun _ hj hne => Vector.getElem_set_ne hk hj hne.symm

/-- Settles O16: RET reads the slot below SP and CALL writes the one at SP; the others pass the stack by. -/
theorem staleStackSlotsAreReadByNoInstruction : Obligations.StaleStackSlotsAreReadByNoInstruction := by
  intro i s t k hk v hstale h
  cases i with
  | ret =>
    obtain h0 | hpos := Nat.eq_zero_or_pos s.sp.val
    · obtain rfl := Host.Outcome.next.inj ((exec_ret_of_zero h0).symm.trans h)
      exact ⟨_, exec_ret_of_zero h0, equalButSlot_set _ hk v⟩
    · obtain rfl := Host.Outcome.next.inj ((exec_ret_of_pos hpos).symm.trans h)
      refine ⟨_, exec_ret_of_pos (s := { s with stack := s.stack.set k v hk }) hpos, ?_⟩
      have hread : (s.stack.set k v)[s.sp.val - 1]'(by omega) = s.stack[s.sp.val - 1]'(by omega) :=
        Vector.getElem_set_ne hk _ (by omega)
      simp only [hread]
      exact equalButSlot_set _ hk v
  | callAddr nnn =>
    have hlt : s.sp.val < 12 := hstale.trans_lt hk
    obtain rfl := Host.Outcome.next.inj ((exec_callAddr_of_lt nnn hlt).symm.trans h)
    refine ⟨_, exec_callAddr_of_lt (s := { s with stack := s.stack.set k v hk }) nnn hlt, equalButSlot _ fun j hj hne => ?_⟩
    simp only [State.complete_stack, Vector.getElem_set, hne.symm, if_false]
  | ldStVx x =>
    obtain rfl := Host.Outcome.next.inj ((exec_ldStVx x s).symm.trans h)
    exact ⟨_, exec_ldStVx x _, equalButSlot_set _ hk v⟩
  | _ =>
    exact ⟨_, exec_overlay_of_next (stack := (·.set k v hk)) (st := id) (image := id)
      (by simp only [mayWriteParts]; decide) (by simp only [mayWriteParts]; decide) h, equalButSlot_set t hk v⟩

end Sys2Proof.Machine

/-! ### Commands: what a batch and a tick keep (spec 60_exceptions.md R236, R250) -/

namespace Sys2Proof.Machine

variable {s t : State}

/-- Everything a batch of one step more can do. -/
theorem batch_succ_cases {n : Nat} (h : batch (n + 1) s = .next t) :
    ∃ u v, step s = .next u ∧ batch n u = .next v ∧ t = { v with report := u.report ++ v.report } := by
  obtain ⟨u, hu⟩ := step_answers s
  obtain ⟨v, hv⟩ := batch_answers n u
  exact ⟨u, v, hu, hv, Host.Outcome.next.inj (h.symm.trans (batch_succ hu hv))⟩

/-- Everything a tick can do. -/
theorem tick_cases (h : tick s = .next t) :
    ∃ u, batch s.stepsPerTick s.decrementTimers = .next u ∧ t = u.sampleSound := by
  obtain ⟨u, hu⟩ := batch_answers s.stepsPerTick s.decrementTimers
  exact ⟨u, hu, Host.Outcome.next.inj (h.symm.trans (tick_of_batch hu))⟩

section Keeps

variable {P : State → Prop} (hreport : ∀ s r, P s → P { s with report := r }) (hstep : ∀ s t, P s → step s = .next t → P t)
include hreport hstep

/-- What every step keeps, a batch keeps. -/
theorem batch_keeps {n : Nat} (hs : P s) (h : batch n s = .next t) : P t := by
  induction n generalizing s t with
  | zero =>
    obtain rfl := Host.Outcome.next.inj h
    exact hreport s [] hs
  | succ n ih =>
    obtain ⟨u, v, hu, hv, rfl⟩ := batch_succ_cases h
    exact hreport v _ (ih (hstep s u hs hu) hv)

/-- What every step, the timer decrement and the sound sample keep, a tick keeps. -/
theorem tick_keeps (htimers : ∀ s, P s → P s.decrementTimers) (hsound : ∀ s, P s → P s.sampleSound) (hs : P s)
    (h : tick s = .next t) : P t := by
  obtain ⟨u, hu, rfl⟩ := tick_cases h
  exact hsound u (batch_keeps hreport hstep (htimers s hs) hu)

end Keeps

/-! #### The configuration -/

theorem step_config (h : step s = .next t) : t.config = s.config := by
  obtain ⟨d, rfl⟩ | ⟨d, rfl⟩ | ⟨i, hexec⟩ := step_next_cases h
  · exact s.raise_config d
  · exact s.advance.raise_config d
  · exact exec_config (s := s.advance) hexec

theorem loadCommand_config (bytes : List Byte) (s : State) : (loadCommand bytes s).config = s.config := by
  obtain hlong | hfits := Nat.lt_or_ge maxProg bytes.length
  · rw [loadCommand_of_lt hlong, s.raise_config]
  · rw [loadCommand_of_le hfits]
    rfl

/-- Settles O57: no step changes it, so no tick does, and the other commands carry it over. -/
theorem configurationIsConstant : Obligations.ConfigurationIsConstant := by
  intro c s t h
  cases c with
  | reset =>
    obtain rfl := Host.Outcome.next.inj h
    rfl
  | step => exact step_config h
  | tick =>
    exact tick_keeps (P := fun u => u.config = s.config) (fun _ _ hu => hu) (fun _ _ hu hstep => (step_config hstep).trans hu)
      (fun _ hu => hu) (fun _ hu => hu) rfl h
  | load bytes =>
    obtain rfl := Host.Outcome.next.inj h
    exact loadCommand_config bytes s
  | setKey k pressed =>
    obtain rfl := Host.Outcome.next.inj h
    rfl

end Sys2Proof.Machine

/-! ### The invariant (spec 10_state.md R38) -/

namespace Sys2Proof.Machine

variable {s t : State}

/-- The invariant reads memory, the program image and the configuration only. -/
theorem State.Inv.congr (h : s.Inv) (hconfig : t.config = s.config) (hmem : t.mem = s.mem)
    (himage : t.romImage = s.romImage) : t.Inv where
  memory := by rw [hconfig, hmem]; exact h.memory
  image := by rw [himage]; exact h.image
  glyphs := by rw [hconfig, hmem]; exact h.glyphs

theorem State.Inv.raise (h : s.Inv) (d : Diagnostic) : (s.raise d).Inv := h.congr rfl rfl rfl

/-- A store that passes its checks lies inside memory and, under the policy fault, above the glyph region (R55, R56). -/
theorem State.Inv.storeAtIndex (h : s.Inv) {bs : List Byte} (hrange : s.index.toNat + bs.length ≤ 4096)
    (hglyph : 0x1FF < s.index.toNat ∨ s.config.glyphStore = .allow) : (s.storeAtIndex bs).Inv where
  memory := Memory.wf_writeBytes h.memory hrange
  image := h.image
  glyphs hfault p hp := by
    obtain hold | ⟨hbase, -⟩ := Memory.mem_writeBytes hp
    · exact h.glyphs hfault p hold
    · have habove : 0x1FF < s.index.toNat := hglyph.resolve_right fun hallow => by cases hallow.symm.trans hfault
      exact habove.trans_le hbase

theorem exec_keeps_inv {i : Instr} (hs : s.Inv) (h : exec i s = .next t) : t.Inv := by
  have hconfig := exec_config h
  have himage := exec_romImage h
  obtain ⟨-, hmem | ⟨bs, hrange, hglyph, hmem⟩⟩ | ⟨d, rfl⟩ := exec_next_cases h
  · exact hs.congr hconfig hmem himage
  · exact (hs.storeAtIndex hrange hglyph).congr hconfig hmem himage
  · exact hs.raise d

theorem step_keeps_inv (hs : s.Inv) (h : step s = .next t) : t.Inv := by
  have hadvance : s.advance.Inv := hs.congr rfl rfl rfl
  obtain ⟨d, rfl⟩ | ⟨d, rfl⟩ | ⟨i, hexec⟩ := step_next_cases h
  · exact hs.raise d
  · exact hadvance.raise d
  · exact exec_keeps_inv hadvance hexec

/-- Settles O53: only the two stores write memory, after their checks, and nothing writes the image or the configuration. -/
theorem stepKeepsInvariant : Obligations.StepKeepsInvariant := fun _ _ => step_keeps_inv

/-- A reset writes the program image alone, at 0x200 and above (R270). -/
theorem resetCommand_inv (h : s.romImage.length ≤ maxProg) : (resetCommand s).Inv where
  memory := wf_imageMemory s.config h
  image := h
  glyphs _ p hp := by
    obtain hnil | ⟨hbase, -⟩ := Memory.mem_writeBytes hp
    · cases hnil
    · exact Nat.lt_of_succ_le hbase

theorem loadCommand_keeps_inv (bytes : List Byte) (hs : s.Inv) : (loadCommand bytes s).Inv := by
  obtain hlong | hfits := Nat.lt_or_ge maxProg bytes.length
  · rw [loadCommand_of_lt hlong]
    exact hs.raise _
  · rw [loadCommand_of_le hfits]
    exact (resetCommand_inv (s := { s with romImage := bytes }) hfits).congr rfl rfl rfl

theorem command_keeps_inv {c : Command} (hs : s.Inv) (h : command c s = .next t) : t.Inv := by
  cases c with
  | reset =>
    obtain rfl := Host.Outcome.next.inj h
    exact resetCommand_inv hs.image
  | step => exact step_keeps_inv hs h
  | tick =>
    exact tick_keeps (P := State.Inv) (fun _ _ hu => hu.congr rfl rfl rfl) (fun _ _ => step_keeps_inv)
      (fun _ hu => hu.congr rfl rfl rfl) (fun _ hu => hu.congr rfl rfl rfl) hs h
  | load bytes =>
    obtain rfl := Host.Outcome.next.inj h
    exact loadCommand_keeps_inv bytes hs
  | setKey k pressed =>
    obtain rfl := Host.Outcome.next.inj h
    exact hs.congr rfl rfl rfl

/-- The invariant reads the glyphs and the store policy of the configuration, not IPS. -/
theorem withIps_keeps_inv (n : Nat) (hs : s.Inv) : (s.withIps n).Inv := ⟨hs.memory, hs.image, hs.glyphs⟩

/-- Settles O60: command by command, TICK by what every step keeps. -/
theorem commandsKeepInvariant : Obligations.CommandsKeepInvariant :=
  ⟨fun _ _ _ => command_keeps_inv, fun n _ => withIps_keeps_inv n⟩

/-- At power-up memory lists nothing and there is no program (R271). -/
theorem powerUp_inv (c : Config) : ({ State.reset with config := c } : State).Inv where
  memory := ⟨List.Pairwise.nil, fun _ hp => absurd hp List.not_mem_nil⟩
  image := Nat.zero_le _
  glyphs _ _ hp := absurd hp List.not_mem_nil

/-- Settles O54: power-up with the configuration the block is built with. -/
theorem resetMeetsInvariant : Obligations.ResetMeetsInvariant := powerUp_inv Config.board

/-- Settles O55: by induction on what has led to the state. -/
theorem reachableStatesMeetInvariant : Obligations.ReachableStatesMeetInvariant := by
  intro s hs
  induction hs with
  | powerUp c => exact powerUp_inv c
  | command c _ h ih => exact command_keeps_inv ih h
  | ips n _ ih => exact withIps_keeps_inv n ih

/-- Settles O56: memory lists nothing in the region, so it reads as the content after reset. -/
theorem glyphRegionIsNeverOverwritten : Obligations.GlyphRegionIsNeverOverwritten := by
  intro s hs hfault a ha
  have hglyphs := (reachableStatesMeetInvariant s hs).glyphs hfault
  exact Memory.read_of_lt fun p hp => ha.trans_lt (hglyphs p hp)

/-- An address past every listed one reads as unlisted. -/
theorem Memory.read_of_gt {c : Config} {m : Memory} {a : Nat} (h : ∀ p ∈ m, p.1 < a) :
    Memory.read c m a = unlistedByte c a := by
  induction m with
  | nil => rfl
  | cons p m ih =>
    rw [Memory.read, if_neg (Nat.ne_of_gt (h p List.mem_cons_self))]
    exact ih fun q hq => h q (List.mem_cons_of_mem _ hq)

/-- Settles O59: past 4096 both memories read as unlisted, so the reads are equal at every address. -/
theorem equalReadsMeanEqualMemories : Obligations.EqualReadsMeanEqualMemories := by
  intro s t hs ht hconfig h
  have hmem := ht.memory
  rw [hconfig] at hmem
  refine Memory.ext_of_read hmem hs.memory fun a => ?_
  obtain hlt | hge := Nat.lt_or_ge a memSize
  · simpa only [State.byteAt, hconfig] using h a hlt
  · rw [Memory.read_of_gt fun p hp => (hmem.2 p hp).1.trans_le hge,
      Memory.read_of_gt fun p hp => (hs.memory.2 p hp).1.trans_le hge]

end Sys2Proof.Machine

/-! ### The record of the first diagnostic (spec 92_eei_decisions.md D20) -/

namespace Sys2Proof.Machine

variable {s t u : State}

theorem firstDiagnostic_append (xs ys : List Status) :
    firstDiagnostic (xs ++ ys) = (firstDiagnostic xs).or (firstDiagnostic ys) := List.findSome?_append

/-- The record of `t` is that of `s`, or else the first diagnostic `t` reports. -/
def Records (s t : State) : Prop := t.diagSeen = s.diagSeen.or (firstDiagnostic t.report)

theorem records_of_silent (hseen : t.diagSeen = s.diagSeen) (hreport : firstDiagnostic t.report = none) : Records s t := by
  rw [Records, hseen, hreport, Option.or_none]

theorem records_raise (d : Diagnostic) (s : State) : Records s (s.raise d) := by
  rw [Records, State.raise_diagSeen, State.raise_report]
  cases s.diagSeen <;> rfl

theorem exec_records {i : Instr} (h : exec i s = .next t) : Records s t := by
  obtain ⟨⟨-, hreport, hseen⟩, -⟩ | ⟨d, rfl⟩ := exec_next_cases h
  · exact records_of_silent hseen (by rw [hreport]; rfl)
  · exact records_raise d s

/-- The fetch advance changes no record. -/
theorem step_records (h : step s = .next t) : Records s t := by
  obtain ⟨d, rfl⟩ | ⟨d, rfl⟩ | ⟨i, hexec⟩ := step_next_cases h
  · exact records_raise d s
  · exact records_raise d s.advance
  · exact exec_records (s := s.advance) hexec

theorem Records.trans (hst : Records s t) (htu : Records t u) :
    Records s { u with report := t.report ++ u.report } := by
  show u.diagSeen = _
  rw [htu, hst, firstDiagnostic_append, Option.or_assoc]

theorem batch_records {n : Nat} (h : batch n s = .next t) : Records s t := by
  induction n generalizing s t with
  | zero =>
    obtain rfl := Host.Outcome.next.inj h
    exact records_of_silent rfl rfl
  | succ n ih =>
    obtain ⟨u, v, hu, hv, rfl⟩ := batch_succ_cases h
    exact (step_records hu).trans (ih hv)

/-- Neither the timer decrement nor the sound sample records anything. -/
theorem tick_records (h : tick s = .next t) : Records s t := by
  obtain ⟨u, hu, rfl⟩ := tick_cases h
  exact (batch_records hu : Records s.decrementTimers u)

theorem loadCommand_records (bytes : List Byte) (s : State) : Records s (loadCommand bytes s) := by
  obtain hlong | hfits := Nat.lt_or_ge maxProg bytes.length
  · rw [loadCommand_of_lt hlong]
    exact records_raise _ s
  · rw [loadCommand_of_le hfits]
    exact records_of_silent rfl rfl

theorem command_records {c : Command} (h : command c s = .next t) : Records s t := by
  cases c with
  | reset =>
    obtain rfl := Host.Outcome.next.inj h
    exact records_of_silent rfl rfl
  | step => exact step_records h
  | tick => exact tick_records h
  | load bytes =>
    obtain rfl := Host.Outcome.next.inj h
    exact loadCommand_records bytes s
  | setKey k pressed =>
    obtain rfl := Host.Outcome.next.inj h
    exact records_of_silent rfl rfl

/-- Settles O58: command by command, TICK by the records of its steps in their order. -/
theorem recordHoldsTheFirstDiagnostic : Obligations.RecordHoldsTheFirstDiagnostic := by
  intro c s t h
  rw [command_records h]
  cases s.diagSeen <;> rfl

end Sys2Proof.Machine

/-! ### RESET, SET_KEY and TICK (spec 60_exceptions.md R250; 70_reset_and_hazards.md R270; 10_state.md R45) -/

namespace Sys2Proof.Machine

/-- Settles O49: the state after a reset, which no bound on the image is needed for. -/
theorem resetRestoresEveryPieceOfState : Obligations.ResetRestoresEveryPieceOfState := fun s _ =>
  ⟨_, rfl, afterReset_resetCommand s, rfl, rfl⟩

theorem resetCommand_reset : resetCommand State.reset = State.reset := rfl

/-- Settles O50: power-up is its own reset. -/
theorem powerUpIsResetWithoutProgram : Obligations.PowerUpIsResetWithoutProgram :=
  ⟨resetCommand_reset ▸ afterReset_resetCommand State.reset, congrArg Host.Outcome.next resetCommand_reset⟩

theorem setKeyCommand_key (k : Nat) (pressed : Bool) (s : State) (j : Fin 16) :
    (setKeyCommand k pressed s).key[j] = if j.val = k then pressed else s.key[j] := by
  by_cases hk : k < 16
  · simp only [setKeyCommand, hk, dite_true, Fin.getElem_fin, Vector.getElem_set, eq_comm]
  · have hne : j.val ≠ k := by
      have := j.isLt
      omega
    simp only [setKeyCommand, hk, dite_false, hne, if_false]

theorem setKeyCommand_writesOnly (k : Nat) (pressed : Bool) (s : State) :
    WritesOnly [] [.keys] s (setKeyCommand k pressed s) := by
  refine ⟨fun _ _ => rfl, fun p hp => ?_⟩
  cases p with
  | keys => exact absurd (by decide) hp
  | stack => exact ⟨rfl, fun _ _ => rfl⟩
  | display => exact fun _ _ => rfl
  | memory => exact fun _ => rfl
  | index | pc | delayTimer | soundTimer | romImage | config | soundOut | draws => exact rfl

/-- Settles O52: one latch of the vector, or none. -/
theorem setKeyWritesOneLatch : Obligations.SetKeyWritesOneLatch := fun k pressed s =>
  ⟨_, rfl, setKeyCommand_key k pressed s, setKeyCommand_writesOnly k pressed s, rfl, rfl⟩

/-! #### A batch is a run that collects the statuses -/

theorem run_succ {s t : State} (h : step s = .next t) (n : Nat) : Sys2Proof.core.run (n + 1) s = Sys2Proof.core.run n t := by
  have hcore : Sys2Proof.core.step s = .next t := h
  simp only [Host.Core.run, hcore]

/-- Report `k` of the batch `t` is the status after `k + 1` steps from `s`. -/
def ReportsEachStep (n : Nat) (s t : State) : Prop :=
  t.report.length = n ∧
    ∀ k, k < n → ∃ v : State, Sys2Proof.core.run (k + 1) s = .next v ∧ v.report = t.report[k]?.toList

/-- A step reports one status (R233). -/
theorem step_report_singleton {s t : State} (h : step s = .next t) : ∃ r, t.report = [r] := by
  obtain hok | ⟨d, hd⟩ := stepReportsOneStatus s t h
  · exact ⟨.ok, hok⟩
  · exact ⟨.diag d, hd⟩

theorem ReportsEachStep.cons {n : Nat} {s t u : State} (hstep : step s = .next t) (h : ReportsEachStep n t u) :
    ReportsEachStep (n + 1) s { u with report := t.report ++ u.report } := by
  obtain ⟨r, hr⟩ := step_report_singleton hstep
  obtain ⟨hlength, hstatus⟩ := h
  rw [hr]
  refine ⟨congrArg Nat.succ hlength, fun k hk => ?_⟩
  cases k with
  | zero => exact ⟨t, run_succ hstep 0, hr⟩
  | succ k =>
    obtain ⟨v, hv, hreport⟩ := hstatus k (Nat.lt_of_succ_lt_succ hk)
    exact ⟨v, (run_succ hstep (k + 1)).trans hv, hreport⟩

theorem batch_runs (n : Nat) (s : State) : ∃ t u : State, batch n s = .next t ∧ Sys2Proof.core.run n s = .next u ∧
    t = { u with report := t.report } ∧ ReportsEachStep n s t := by
  induction n generalizing s with
  | zero => exact ⟨_, s, rfl, rfl, rfl, rfl, fun k hk => absurd hk (Nat.not_lt_zero k)⟩
  | succ n ih =>
    obtain ⟨s₁, hs₁⟩ := step_answers s
    obtain ⟨t, u, hbatch, hrun, ht, hreports⟩ := ih s₁
    exact ⟨_, u, batch_succ hs₁ hbatch, (run_succ hs₁ n).trans hrun, by rw [ht], hreports.cons hs₁⟩

/-- Settles O48: the batch from the state with its timers counted down, and then the sound sample. -/
theorem tickDecrementsThenRunsTheBatch : Obligations.TickDecrementsThenRunsTheBatch := by
  intro s s₀ hs₀
  obtain rfl : s₀ = s.decrementTimers := hs₀
  obtain ⟨t, u, hbatch, hrun, ht, hlength, hstatus⟩ := batch_runs s.stepsPerTick s.decrementTimers
  refine ⟨t.sampleSound, u, tick_of_batch hbatch, hrun, ?_, hlength, hstatus⟩
  have hsound : (u.st != 0) = decide (u.st ≠ 0) := Bool.eq_iff_iff.mpr (by simp)
  rw [← hsound, ht]
  rfl

end Sys2Proof.Machine
